-- ==== Sys2Proof/Word.lean ====
section
/-! DEFINITION. The word types of the core: the widths of 00_scope.md R11 and the field widths of
30_encoding.md R70. -/

namespace Sys2Proof

/-- An 8-bit value: a memory cell, a V register, a timer, an immediate `NN` (R11, R70). -/
abbrev Byte := BitVec 8

/-- A 16-bit value: `I`, `PC`, a stack entry, an opcode (R11, R70). -/
abbrev Word := BitVec 16

/-- A 12-bit address literal `NNN` (R70). -/
abbrev Addr := BitVec 12

/-- A 4-bit count `N` (R70). -/
abbrev Nibble := BitVec 4

/-- A general register number, the value of a selector field `X` or `Y` (R21, R73). -/
abbrev Reg := Fin 16

/-- A keypad latch number (R31). -/
abbrev Key := Fin 16

/-- `VF`, the general register that is also the flag register (R22). -/
abbrev VF : Reg := 15

end Sys2Proof
end

