-- ==== Sys2Proof/Config.lean ====
section
/-! DEFINITION. What an implementation fixes: the configuration table of 00_scope.md R10, the quirks
modes of R2, and the free values the spec draws from the environment (10_state.md R46). -/

namespace Sys2Proof

/-- The quirks mode (R2, R32). `superchip` and `xochip` behave alike in every rule. -/
inductive Quirks where
  | chip8
  | superchip
  | xochip
  deriving DecidableEq, Repr

/-- The register that `8XY7` writes its difference to (R10 `SUBN_DEST`, 90_conflicts.md C1). -/
inductive SubnDest where
  | vy
  | vx
  deriving DecidableEq, Repr

/-- How family 0 matches its two instructions (R10 `FAMILY0_MATCH`, 90_conflicts.md C5). -/
inductive Family0Match where
  | exact
  | lowByte
  deriving DecidableEq, Repr

/-- What `EX9E` and `EXA1` see for a register value of 16 or more (R10 `KEY_OOR`, R190). -/
inductive KeyOor where
  | draw
  | lowNibble
  | notPressed
  deriving DecidableEq, Repr

/-- The configuration of R10: every row that a rule reads and that may differ between
implementations. The rows whose constraint is one fixed value are the constants below. -/
structure Config where
  /-- `MEM_SIZE` -/
  memSize : Nat
  /-- `ENTRY` -/
  entry : Nat
  /-- `STACK_DEPTH` -/
  stackDepth : Nat
  /-- `FB_W` -/
  fbW : Nat
  /-- `FB_H` -/
  fbH : Nat
  /-- `FONT_DATA` -/
  fontData : List Byte
  /-- `SUBN_DEST` -/
  subnDest : SubnDest
  /-- `FAMILY0_MATCH` -/
  family0Match : Family0Match
  /-- `DXY0_ROWS` -/
  dxy0Rows : Nat
  /-- `KEY_OOR` -/
  keyOor : KeyOor
  /-- `FX0A_CLEARS_LATCH` -/
  fx0aClearsLatch : Bool
  deriving DecidableEq, Repr

/-- `FONT_BASE`, fixed at 0 by R10. -/
abbrev Config.fontBase : Nat := 0

/-- `FONT_GLYPHS`, fixed at 16 by R10. -/
abbrev Config.fontGlyphs : Nat := 16

/-- `GLYPH_BYTES`, fixed at 5 by R10. -/
abbrev Config.glyphBytes : Nat := 5

/-- `FONT_SIZE` is `GLYPH_BYTES * FONT_GLYPHS` (R10). -/
abbrev Config.fontSize : Nat := Config.glyphBytes * Config.fontGlyphs

/-- `TICK_HZ`: informational only, no rule reads it (R10). -/
abbrev Config.tickHz : Nat := 60

/-- `draw_byte()`, a free 8-bit input of a step (R46): draw number `n` of a run. It has no body, so
nothing can be proved of its value (log 5). -/
opaque Config.drawByte : Nat → Byte

/-- `draw_bit()`, a free 1-bit input of a step (R46): draw number `n` of a run. It has no body, so
nothing can be proved of its value (log 5). -/
opaque Config.drawBit : Nat → Bool

end Sys2Proof
end

