-- ==== Sys2Proof/Machine/Params.lean ====
section
/-! DEFINITION. The default configuration: the default column of 00_scope.md R10, and what a byte of
memory holds after create and reset where no program byte was placed (10_state.md R37). -/

namespace Sys2Proof.Machine

/-- The default `FONT_DATA`: the 16 glyphs of 92_eei_decisions.md D3, five bytes each. PRESUMED: the
spec takes these bytes from general knowledge (log 4). -/
def defaultFont : List Byte :=
  [0xF0, 0x90, 0x90, 0x90, 0xF0, 0x20, 0x60, 0x20, 0x20, 0x70,
   0xF0, 0x10, 0xF0, 0x80, 0xF0, 0xF0, 0x10, 0xF0, 0x10, 0xF0] ++
  [0x90, 0x90, 0xF0, 0x10, 0x10, 0xF0, 0x80, 0xF0, 0x10, 0xF0,
   0xF0, 0x80, 0xF0, 0x90, 0xF0, 0xF0, 0x10, 0x20, 0x40, 0x40] ++
  [0xF0, 0x90, 0xF0, 0x90, 0xF0, 0xF0, 0x90, 0xF0, 0x10, 0xF0,
   0xF0, 0x90, 0xF0, 0x90, 0x90, 0xE0, 0x90, 0xE0, 0x90, 0xE0] ++
  [0xF0, 0x80, 0x80, 0x80, 0xF0, 0xE0, 0x90, 0x90, 0x90, 0xE0,
   0xF0, 0x80, 0xF0, 0x80, 0xF0, 0xF0, 0x80, 0xF0, 0x80, 0x80]

/-- The defaults of R10. The options whose default is the spec's own choice have log entries: 6
(`SUBN_DEST`), 7 (`FAMILY0_MATCH`), 8 (`DXY0_ROWS`), 9 (`KEY_OOR`), 10 (`FX0A_CLEARS_LATCH`). -/
def defaultConfig : Config where
  memSize := 4096
  entry := 0x200
  stackDepth := 12
  fbW := 64
  fbH := 32
  fontData := defaultFont
  subnDest := .vy
  family0Match := .exact
  dxy0Rows := 0
  keyOor := .draw
  fx0aClearsLatch := true

/-- What `MEM[a]` holds after create or reset where no program byte was placed: `FONT_DATA` at
`FONT_BASE .. FONT_BASE+FONT_SIZE-1`, 0 elsewhere (R37, R243). It is also what an address that memory
does not list reads as (log 15). -/
def resetByte (c : Config) (a : Nat) : Byte :=
  if Config.fontBase ≤ a ∧ a < Config.fontBase + Config.fontSize then
    c.fontData.getD (a - Config.fontBase) 0
  else 0

end Sys2Proof.Machine
end

