-- ==== Sys2Proof/Machine/State.lean ====
section
/-! DEFINITION. The state of the core (10_state.md R20), the reasons a step can stop, and the state
after reset (10_state.md R37). -/

namespace Sys2Proof.Machine

/-- The contents of `MEM` (20_memory.md R50): pairs of address and byte in the canonical form
`Memory.wf` (Ops.lean). An address that is not listed reads as `resetByte` (log 15). -/
abbrev Memory := List Host.Cell

/-- `FB` (R30): the rows from `y = 0`, each the pixels from `x = 0`. -/
abbrev Framebuffer := List (List Bool)

/-- The kinds of execution fault (60_exceptions.md R210, R212). -/
inductive FaultKind where
  | stackOverflow
  | stackUnderflow
  | memoryOutOfRange
  deriving DecidableEq, Repr

/-- The state of the core. `cfg` is the configuration of 00_scope.md R10 and `draws` the model's own
count of free draws; every other field is a component of the tuple of R20. -/
structure State where
  /-- The configuration (R10). Nothing writes it after create. -/
  cfg : Config
  /-- `MEM` (R50) -/
  mem : Memory
  /-- `V[0]` to `V[15]` (R21) -/
  v : Vector Byte 16
  /-- `I` (R23) -/
  i : Word
  /-- `PC` (R24) -/
  pc : Word
  /-- `SP`, the number of stack entries held (R26) -/
  sp : Nat
  /-- `STACK[0]` to `STACK[STACK_DEPTH-1]` (R26) -/
  stack : List Word
  /-- `DT` (R29) -/
  dt : Byte
  /-- `ST` (R29) -/
  st : Byte
  /-- `FB` (R30) -/
  fb : Framebuffer
  /-- `KEY[0]` to `KEY[15]`; true is pressed (R31) -/
  key : Vector Bool 16
  /-- `QUIRKS` (R32) -/
  quirks : Quirks
  /-- `DRAW` (R33) -/
  draw : Bool
  /-- `FAULT`; `none` is the spec's `None` (R34) -/
  fault : Option FaultKind
  /-- How many free draws have been taken (R46, log 5). -/
  draws : Nat
  deriving DecidableEq, Repr

/-- The one reason a step answers a fault. An instruction's own fault is no outcome of this type: it
is a next state with `FAULT` latched (60_exceptions.md R211, log 1). -/
inductive Fault where
  /-- Raised by `step` alone, when `FAULT` already holds a kind: the core is halted, nothing changes
  and the spec's `step` returns `Halted` (60_exceptions.md R213). Safe: the spec says exactly this. -/
  | halted (kind : FaultKind)
  deriving DecidableEq, Repr

/-- Why an instruction has no meaning. -/
inductive Refusal where
  /-- Raised by an arm of `exec` whose instruction has no meaning yet; no arm does. Safe. -/
  | notModelled (mnemonic : String)
  deriving DecidableEq, Repr

/-- The three outcomes of a step of this machine. -/
abbrev Outcome := Host.Outcome State Fault Refusal

/-- A framebuffer with every pixel off (R30). -/
def blankFb (c : Config) : Framebuffer := List.replicate c.fbH (List.replicate c.fbW false)

/-- The state that `Load` of an empty program leaves (10_state.md R37, 70_reset_and_hazards.md R243)
in a machine of configuration `c` and mode `q`. -/
def initialState (c : Config) (q : Quirks) : State where
  cfg := c
  mem := []
  v := Vector.replicate 16 0
  i := 0
  pc := BitVec.ofNat 16 c.entry
  sp := 0
  stack := List.replicate c.stackDepth 0
  dt := 0
  st := 0
  fb := blankFb c
  key := Vector.replicate 16 false
  quirks := q
  draw := false
  fault := none
  draws := 0

/-- The machine right after reset, with no program placed: the default configuration (log 3) and
`QUIRKS = CHIP8` (DESIGN CHOICE, log 2: the spec takes the mode as an argument of create). -/
def State.reset : State := initialState defaultConfig .chip8

end Sys2Proof.Machine
end

