-- ==== Sys2Proof/Machine/Ops.lean ====
section
/-! DEFINITION. The named operations over memory and registers that every meaning uses: memory
(20_memory.md R50 to R54), the register file (10_state.md R21), the call stack (R26 to R28), the range
check (20_memory.md R53), and raising a fault (60_exceptions.md R211). -/

namespace Sys2Proof.Machine

/-! ## Memory -/

/-- The byte at an address of a memory of configuration `c`: the listed one, else the reset byte. -/
def Memory.read (c : Config) : Memory → Nat → Byte
  | [], a => resetByte c a
  | (b, w) :: rest, a => if b = a then w else Memory.read c rest a

/-- A memory without its entry for an address. -/
def Memory.erase (m : Memory) (a : Nat) : Memory := m.filter (fun cell => cell.1 != a)

/-- A memory with an entry put in front of the first one whose address is not lower. -/
def Memory.insert (a : Nat) (w : Byte) : Memory → Memory
  | [] => [(a, w)]
  | (b, u) :: rest => if b < a then (b, u) :: Memory.insert a w rest else (a, w) :: (b, u) :: rest

/-- `MEM[a] <- w`, keeping the canonical form: no entry where `w` is what an unlisted address reads as. -/
def Memory.write (c : Config) (m : Memory) (a : Nat) (w : Byte) : Memory :=
  if w = resetByte c a then m.erase a else Memory.insert a w (m.erase a)

/-- The canonical form: addresses strictly rising, no entry equal to its reset byte. -/
abbrev Memory.wf (c : Config) (m : Memory) : Prop :=
  m.Pairwise (fun p q => p.1 < q.1) ∧ ∀ cell ∈ m, cell.2 ≠ resetByte c cell.1

/-- `MemRead(a, 1)` (R51). -/
def State.readByte (s : State) (a : Nat) : Byte := Memory.read s.cfg s.mem a

/-- `MemWrite(a, 1, w)` (R52). -/
def State.writeByte (s : State) (a : Nat) (w : Byte) : State :=
  { s with mem := Memory.write s.cfg s.mem a w }

/-- Single-byte writes at `a`, `a+1`, ... in ascending order (R54). -/
def State.writeBytes : State → Nat → List Byte → State
  | s, _, [] => s
  | s, a, w :: ws => State.writeBytes (s.writeByte a w) (a + 1) ws

/-- An access of `w` bytes from `b` is in range: `zext_17(b) + w <= MEM_SIZE`, without wrap (R53). -/
def State.inRange (s : State) (b : Word) (w : Nat) : Bool := decide (b.toNat + w ≤ s.cfg.memSize)

/-! ## Registers -/

/-- `V[x]` (R21). -/
def State.readV (s : State) (x : Reg) : Byte := s.v[x.val]

/-- `V[x] <- w` (R21). -/
def State.writeV (s : State) (x : Reg) (w : Byte) : State := { s with v := s.v.set x.val w }

/-- `I <- w` (R23). -/
def State.setI (s : State) (w : Word) : State := { s with i := w }

/-- `PC <- w` (R24). -/
def State.setPc (s : State) (w : Word) : State := { s with pc := w }

/-- `DT <- w` (R29). -/
def State.setDt (s : State) (w : Byte) : State := { s with dt := w }

/-- `ST <- w` (R29). -/
def State.setSt (s : State) (w : Byte) : State := { s with st := w }

/-- `FB` replaced as a whole (R30). -/
def State.setFb (s : State) (f : Framebuffer) : State := { s with fb := f }

/-- `DRAW <- b` (R33). -/
def State.setDraw (s : State) (b : Bool) : State := { s with draw := b }

/-- `KEY[k] <- b` (R31). -/
def State.setKey (s : State) (k : Key) (b : Bool) : State := { s with key := s.key.set k.val b }

/-- `KEY[k]` (R31). -/
def State.readKey (s : State) (k : Key) : Bool := s.key[k.val]

/-- One free draw has been taken (R46, log 5). -/
def State.bumpDraws (s : State) : State := { s with draws := s.draws + 1 }

/-- The registers `V[0]` to `V[x]`, in ascending order (R73, R154, R155). -/
def regsUpTo (x : Reg) : List Reg := (List.finRange 16).take (x.val + 1)

/-- `for i in 0 .. X: V[i] <- MemRead(a + i, 1)` over the registers listed (R155). -/
def State.loadRegs (s : State) (a : Nat) : List Reg → State
  | [] => s
  | r :: rs => State.loadRegs (s.writeV r (s.readByte (a + r.val))) a rs

/-! ## The framebuffer -/

/-- The pixel in column `x` of row `y` (R30, 43_display.md R170). -/
def Framebuffer.pixel (f : Framebuffer) (y x : Nat) : Bool := (f.getD y []).getD x false

/-- `FB[y][x] <- FB[y][x] XOR 1` (R173). -/
def Framebuffer.toggle (f : Framebuffer) (y x : Nat) : Framebuffer :=
  f.modify y (fun row => row.modify x (fun p => !p))

/-- `FB[y][x]` (R30). -/
def State.pixel (s : State) (y x : Nat) : Bool := Framebuffer.pixel s.fb y x

/-! ## Faults -/

/-- What a fault leaves (60_exceptions.md R211): `PC` at the faulting instruction's address, `FAULT`
holding the kind, every other state as before the step. There is no handler and no saved register
(R216); the return from it does not exist (R217): only create and reset clear `FAULT`
(`State.load`, Lifecycle.lean). -/
def State.latchFault (s : State) (kind : FaultKind) (pc0 : Word) : State :=
  { s with pc := pc0, fault := some kind }

/-- `raise Fault(kind)` where `pc0` is the faulting instruction's address (R211): a next state, in
which the core is halted (log 1). -/
def raiseFault (kind : FaultKind) (pc0 : Word) (s : State) : Outcome := .next (s.latchFault kind pc0)

/-- The address of the instruction being executed: `PC` has been advanced by 2 (10_state.md R25). -/
def State.pc0 (s : State) : Word := s.pc - 2

/-- The outcome of an instruction whose fault conditions were tested before it wrote anything (R211):
the state it leaves, or the fault raised at its own address. -/
def State.orRaise (s : State) : Except FaultKind State → Outcome
  | .ok t => .next t
  | .error kind => raiseFault kind s.pc0 s

/-- The range check of R53 in front of an effect. -/
def State.ifInRange (s : State) (b : Word) (w : Nat) (t : State) : Except FaultKind State :=
  if s.inRange b w then .ok t else .error .memoryOutOfRange

/-! ## The call stack -/

/-- `STACK[j]`. -/
def State.stackEntry (s : State) (j : Nat) : Word := s.stack.getD j 0

/-- `Push(w)` (10_state.md R27). -/
def State.push (s : State) (w : Word) : Except FaultKind State :=
  if s.sp = s.cfg.stackDepth then .error .stackOverflow
  else .ok { s with stack := s.stack.set s.sp w, sp := s.sp + 1 }

/-- `Pop()` (R28): the popped value and the state after it. The entry keeps its value. -/
def State.pop (s : State) : Except FaultKind (Word × State) :=
  if s.sp = 0 then .error .stackUnderflow
  else .ok (s.stackEntry (s.sp - 1), { s with sp := s.sp - 1 })

end Sys2Proof.Machine
end

