-- ==== Sys2Proof/Machine/Flags.lean ====
section
/-! DEFINITION. The 8-bit results with their flag, and how a flag is written to `VF`
(41_alu.md R120 to R133). -/

namespace Sys2Proof.Machine

/-- A flag as the byte that `VF` holds: 1 or 0. -/
def flagByte (b : Bool) : Byte := if b then 1 else 0

/-- The 9-bit sum of R127. -/
def sum9 (a b : Byte) : BitVec 9 := a.setWidth 9 + b.setWidth 9

/-- `8XY4`'s result `s9[7:0]` (R127). -/
def addResult (a b : Byte) : Byte := (sum9 a b).extractLsb' 0 8

/-- `8XY4`'s carry `s9[8]` (R127). -/
def addCarry (a b : Byte) : Bool := (sum9 a b).getLsbD 8

/-- The no-borrow flag of `a - b`: 1 iff `a >= b` (R128, R130). -/
def noBorrow (a b : Byte) : Bool := decide (b.toNat ≤ a.toNat)

/-- The bit a right shift by one shifts out (R129). -/
def shiftedOutRight (a : Byte) : Bool := a.getLsbD 0

/-- The bit a left shift by one shifts out (R131). -/
def shiftedOutLeft (a : Byte) : Bool := a.getLsbD 7

/-- The result register first, `VF` last (R120, log 14). -/
def State.writeWithFlag (s : State) (dest : Reg) (w : Byte) (flag : Bool) : State :=
  (s.writeV dest w).writeV VF (flagByte flag)

/-- The result of a bitwise instruction, and `VF <- 0` in `CHIP8` mode (R124 to R126). -/
def State.writeLogic (s : State) (dest : Reg) (w : Byte) : State :=
  match s.quirks with
  | .chip8 => s.writeWithFlag dest w false
  | .superchip => s.writeV dest w
  | .xochip => s.writeV dest w

end Sys2Proof.Machine
end

