-- ==== Sys2Proof/Machine/Operands.lean ====
section
/-! DEFINITION. The operand forms: immediates (30_encoding.md R72), the shift source and the
destination of `8XY7` (41_alu.md R129, R130), the key state of a register value (44_keys_timers.md
R190), the accepted key of `FX0A` (R194), skips (40_flow.md R100), the index step of the register
transfers (42_index_memory.md R154), and the coordinates and row count of `DXYN` (43_display.md R173). -/

namespace Sys2Proof.Machine

/-- `zext_16(NNN)` (R72). -/
def zextAddr (nnn : Addr) : Word := nnn.setWidth 16

/-- `zext_16` of a byte (R108, R151, R152). -/
def zextByte (w : Byte) : Word := w.setWidth 16

/-- `Skip` when `b`: `PC <- (PC + 2) mod 2^16` (R100). DESIGN CHOICE (log 27): where `MEM_SIZE` is 65534
or more, a skip at the end of memory wraps as this formula says (70_reset_and_hazards.md R254). -/
def State.skipIf (s : State) (b : Bool) : State := if b then s.setPc (s.pc + 2) else s

/-- What `8XY6` and `8XYE` shift: `V[Y]` in `CHIP8` mode, `V[X]` in the others (R129, R131). -/
def State.shiftSource (s : State) (x y : Reg) : Byte :=
  match s.quirks with
  | .chip8 => s.readV y
  | .superchip => s.readV x
  | .xochip => s.readV x

/-- The destination register of `8XY7` (R130, `SUBN_DEST`). -/
def State.subnDestReg (s : State) (x y : Reg) : Reg :=
  match s.cfg.subnDest with
  | .vy => y
  | .vx => x

/-- The latch that a 4-bit key value names. -/
def lowKey (w : Byte) : Key := (w.extractLsb' 0 4).toFin

/-- `KeyState(v)` of R190. -/
def State.keyState (s : State) (w : Byte) : Bool :=
  if w.toNat < 16 then s.readKey (lowKey w)
  else
    match s.cfg.keyOor with
    | .draw => Config.drawBit s.draws
    | .lowNibble => s.readKey (lowKey w)
    | .notPressed => false

/-- The state after `KeyState(v)`: a free bit has been drawn, or nothing has changed (R190, log 5). -/
def State.afterKeyState (s : State) (w : Byte) : State :=
  if w.toNat < 16 then s
  else
    match s.cfg.keyOor with
    | .draw => s.bumpDraws
    | .lowNibble => s
    | .notPressed => s

/-- The smallest `k` with `KEY[k] == 1`, if any (R194, log 10). -/
def State.firstKey (s : State) : Option Key := (List.finRange 16).find? (fun k => s.readKey k)

/-- What `FX0A` leaves of the latch it accepted (R194, `FX0A_CLEARS_LATCH`). -/
def State.consumeKey (s : State) (k : Key) : State :=
  if s.cfg.fx0aClearsLatch then s.setKey k false else s

/-- A key number as the byte stored in `V[X]` (R194). -/
def keyByte (k : Key) : Byte := BitVec.ofNat 8 k.val

/-- `if QUIRKS == CHIP8: I <- I + X + 1` (R154, R155). -/
def State.stepIndex (s : State) (x : Reg) : State :=
  match s.quirks with
  | .chip8 => s.setI (s.i + BitVec.ofNat 16 (x.val + 1))
  | .superchip => s
  | .xochip => s

/-- `x0`: `V[X] mod FB_W` (R173). -/
def State.drawX (s : State) (x : Reg) : Nat := (s.readV x).toNat % s.cfg.fbW

/-- `y0`: `V[Y] mod FB_H` (R173). -/
def State.drawY (s : State) (y : Reg) : Nat := (s.readV y).toNat % s.cfg.fbH

/-- `rows`: `N`, or `DXY0_ROWS` for `N = 0` (R173, R175). -/
def State.drawRowCount (s : State) (n : Nibble) : Nat :=
  if n = 0 then s.cfg.dxy0Rows else n.toNat

end Sys2Proof.Machine
end

