-- ==== Sys2Proof/Machine/Alu.lean ====
section
/-! DEFINITION. Register loads and the 8-bit ALU (41_alu.md R120 to R133). Operands are read from the
state before any register is written (R120). -/

namespace Sys2Proof.Machine

/-- `6XNN`: `V[X] <- NN` (R121). -/
def execLdImm (x : Reg) (nn : Byte) (s : State) : Outcome := .next (s.writeV x nn)

/-- `7XNN`: `V[X] <- V[X] + NN`, no flag (R122). -/
def execAddImm (x : Reg) (nn : Byte) (s : State) : Outcome := .next (s.writeV x (s.readV x + nn))

/-- `8XY0`: `V[X] <- V[Y]` (R123). -/
def execLdReg (x y : Reg) (s : State) : Outcome := .next (s.writeV x (s.readV y))

/-- `8XY1`: bitwise OR (R124). -/
def execOr (x y : Reg) (s : State) : Outcome := .next (s.writeLogic x (s.readV x ||| s.readV y))

/-- `8XY2`: bitwise AND (R125). -/
def execAnd (x y : Reg) (s : State) : Outcome := .next (s.writeLogic x (s.readV x &&& s.readV y))

/-- `8XY3`: bitwise XOR (R126). -/
def execXor (x y : Reg) (s : State) : Outcome := .next (s.writeLogic x (s.readV x ^^^ s.readV y))

/-- `8XY4`: add, `VF` the carry (R127). -/
def execAddReg (x y : Reg) (s : State) : Outcome :=
  let a := s.readV x
  let b := s.readV y
  .next (s.writeWithFlag x (addResult a b) (addCarry a b))

/-- `8XY5`: subtract, `VF` the no-borrow (R128). -/
def execSub (x y : Reg) (s : State) : Outcome :=
  let a := s.readV x
  let b := s.readV y
  .next (s.writeWithFlag x (a - b) (noBorrow a b))

/-- `8XY6`: shift right by one, `VF` the bit shifted out (R129). -/
def execShr (x y : Reg) (s : State) : Outcome :=
  let a := s.shiftSource x y
  .next (s.writeWithFlag x (a >>> 1) (shiftedOutRight a))

/-- `8XY7`: reverse subtract into the register `SUBN_DEST` names, `VF` the no-borrow (R130). -/
def execSubn (x y : Reg) (s : State) : Outcome :=
  let a := s.readV x
  let b := s.readV y
  .next (s.writeWithFlag (s.subnDestReg x y) (b - a) (noBorrow b a))

/-- `8XYE`: shift left by one, `VF` the bit shifted out (R131). -/
def execShl (x y : Reg) (s : State) : Outcome :=
  let a := s.shiftSource x y
  .next (s.writeWithFlag x (a <<< 1) (shiftedOutLeft a))

/-- `CXNN`: `V[X] <- draw_byte() AND NN` (R132); the draw is a free value (log 5). -/
def execRnd (x : Reg) (nn : Byte) (s : State) : Outcome :=
  .next (s.bumpDraws.writeV x (Config.drawByte s.draws &&& nn))

end Sys2Proof.Machine
end

