-- ==== Sys2Proof/Machine/Display.lean ====
section
/-! DEFINITION. The framebuffer, blit and collision engine (43_display.md R170 to R176). -/

namespace Sys2Proof.Machine

/-- The framebuffer during a draw, with the collision seen so far (R173). -/
structure Blit where
  fb : Framebuffer
  collision : Bool
  deriving DecidableEq, Repr

/-- One sprite bit that is 1, at `(y, x)`: note a collision if the pixel is on, then toggle it. -/
def Blit.hit (b : Blit) (y x : Nat) : Blit where
  fb := b.fb.toggle y x
  collision := b.collision || b.fb.pixel y x

/-- Sprite column `c` of a row byte: bit `7 - c` (R171, log 18). -/
def spriteBit (w : Byte) (c : Nat) : Bool := w.getLsbD (7 - c)

/-- The columns listed of one sprite row at `(y, x0)`, stopping at the right edge `width` (R173). -/
def blitCols (width y x0 : Nat) (w : Byte) : List Nat → Blit → Blit
  | [], b => b
  | c :: cs, b =>
    if width ≤ x0 + c then b
    else blitCols width y x0 w cs (if spriteBit w c then b.hit y (x0 + c) else b)

/-- The rows listed of the sprite whose row bytes are `row`, at `(y0, x0)`, stopping at the bottom
edge `height` (R173). -/
def blitRows (width height y0 x0 : Nat) (row : Nat → Byte) : List Nat → Blit → Blit
  | [], b => b
  | r :: rs, b =>
    if height ≤ y0 + r then b
    else blitRows width height y0 x0 row rs
      (blitCols width (y0 + r) x0 (row r) (List.range 8) b)

/-- The whole draw of `rows` rows from `MEM[I]` (R173). -/
def State.blit (s : State) (x y : Reg) (rows : Nat) : Blit :=
  blitRows s.cfg.fbW s.cfg.fbH (s.drawY y) (s.drawX x) (fun r => s.readByte (s.i.toNat + r))
    (List.range rows) ⟨s.fb, false⟩

/-- What a draw leaves: `FB`, `VF <- collision`, `DRAW <- 1` (R173). -/
def State.finishDraw (s : State) (b : Blit) : State :=
  ((s.setFb b.fb).writeV VF (flagByte b.collision)).setDraw true

/-- `00E0`: every pixel off, `DRAW <- 1` (R172). -/
def execCls (s : State) : Outcome := .next ((s.setFb (blankFb s.cfg)).setDraw true)

/-- `DXYN`: draw a sprite (R173, R175). The range check counts every row, clipped or not
(92_eei_decisions.md D11, log 13). -/
def execDrw (x y : Reg) (n : Nibble) (s : State) : Outcome :=
  let rows := s.drawRowCount n
  s.orRaise (s.ifInRange s.i rows (s.finishDraw (s.blit x y rows)))

end Sys2Proof.Machine
end

