-- ==== Sys2Proof/Machine/Flow.lean ====
section
/-! DEFINITION. Control transfer and skips (40_flow.md R100 to R109). `PC` holds the instruction's
address plus 2 in every meaning (10_state.md R25). -/

namespace Sys2Proof.Machine

/-- `00EE`: `PC <- Pop()` (R101). -/
def execRet (s : State) : Outcome :=
  s.orRaise (s.pop.map fun r => r.2.setPc r.1)

/-- `1NNN`: `PC <- zext_16(NNN)` (R102). -/
def execJp (nnn : Addr) (s : State) : Outcome := .next (s.setPc (zextAddr nnn))

/-- `2NNN`: `Push(PC)`, then `PC <- zext_16(NNN)` (R103). -/
def execCall (nnn : Addr) (s : State) : Outcome :=
  s.orRaise ((s.push s.pc).map fun t => t.setPc (zextAddr nnn))

/-- `3XNN`: skip if `V[X] == NN` (R104). -/
def execSeImm (x : Reg) (nn : Byte) (s : State) : Outcome := .next (s.skipIf (s.readV x == nn))

/-- `4XNN`: skip if `V[X] != NN` (R105). -/
def execSneImm (x : Reg) (nn : Byte) (s : State) : Outcome := .next (s.skipIf (s.readV x != nn))

/-- `5XY0`: skip if `V[X] == V[Y]` (R106). -/
def execSeReg (x y : Reg) (s : State) : Outcome := .next (s.skipIf (s.readV x == s.readV y))

/-- `9XY0`: skip if `V[X] != V[Y]` (R107). -/
def execSneReg (x y : Reg) (s : State) : Outcome := .next (s.skipIf (s.readV x != s.readV y))

/-- `BNNN`: `PC <- zext_16(NNN) + zext_16(V[0])` (R108). -/
def execJpV0 (nnn : Addr) (s : State) : Outcome :=
  .next (s.setPc (zextAddr nnn + zextByte (s.readV 0)))

end Sys2Proof.Machine
end

