-- ==== Sys2Proof/Machine/Index.lean ====
section
/-! DEFINITION. The index register and memory transfers (42_index_memory.md R150 to R155). -/

namespace Sys2Proof.Machine

/-- `ANNN`: `I <- zext_16(NNN)` (R150). -/
def execLdI (nnn : Addr) (s : State) : Outcome := .next (s.setI (zextAddr nnn))

/-- `FX1E`: `I <- I + zext_16(V[X])`, modulo 2^16 (R151). -/
def execAddIVx (x : Reg) (s : State) : Outcome := .next (s.setI (s.i + zextByte (s.readV x)))

/-- `FX29`: `I <- zext_16(V[X]) * GLYPH_BYTES` (R152). -/
def execLdFVx (x : Reg) (s : State) : Outcome :=
  .next (s.setI (zextByte (s.readV x) * BitVec.ofNat 16 Config.glyphBytes))

/-- The decimal digits of a byte: hundreds, tens, ones (R153). -/
def bcdDigits (w : Byte) : List Byte := [w / 100, w / 10 % 10, w % 10]

/-- `FX33`: the digits of `V[X]` to `MEM[I .. I+2]` (R153). -/
def execLdBVx (x : Reg) (s : State) : Outcome :=
  s.orRaise (s.ifInRange s.i 3 (s.writeBytes s.i.toNat (bcdDigits (s.readV x))))

/-- `FX55`: `V[0..X]` to `MEM[I .. I+X]`, then the index step (R154). -/
def execLdMemVx (x : Reg) (s : State) : Outcome :=
  s.orRaise (s.ifInRange s.i (x.val + 1)
    ((s.writeBytes s.i.toNat ((regsUpTo x).map s.readV)).stepIndex x))

/-- `FX65`: `V[0..X]` from `MEM[I .. I+X]`, then the index step (R155). -/
def execLdVxMem (x : Reg) (s : State) : Outcome :=
  s.orRaise (s.ifInRange s.i (x.val + 1) ((s.loadRegs s.i.toNat (regsUpTo x)).stepIndex x))

end Sys2Proof.Machine
end

