-- ==== Sys2Proof/Machine/Keys.lean ====
section
/-! DEFINITION. Keypad and timer instructions (44_keys_timers.md R190 to R196). -/

namespace Sys2Proof.Machine

/-- `EX9E`: skip if the key is pressed (R191). -/
def execSkp (x : Reg) (s : State) : Outcome :=
  .next ((s.afterKeyState (s.readV x)).skipIf (s.keyState (s.readV x)))

/-- `EXA1`: skip if the key is not pressed (R192). -/
def execSknp (x : Reg) (s : State) : Outcome :=
  .next ((s.afterKeyState (s.readV x)).skipIf (!s.keyState (s.readV x)))

/-- `FX07`: `V[X] <- DT` (R193). -/
def execLdVxDt (x : Reg) (s : State) : Outcome := .next (s.writeV x s.dt)

/-- `FX0A`: wait for a key (R194). With no key latched `PC` goes back to the instruction; otherwise the
lowest latched key is stored and its latch consumed. -/
def execLdVxK (x : Reg) (s : State) : Outcome :=
  match s.firstKey with
  | none => .next (s.setPc (s.pc - 2))
  | some k => .next ((s.writeV x (keyByte k)).consumeKey k)

/-- `FX15`: `DT <- V[X]` (R195). -/
def execLdDtVx (x : Reg) (s : State) : Outcome := .next (s.setDt (s.readV x))

/-- `FX18`: `ST <- V[X]` (R196). -/
def execLdStVx (x : Reg) (s : State) : Outcome := .next (s.setSt (s.readV x))

end Sys2Proof.Machine
end

