-- ==== Sys2Proof/Decode.lean ====
section
/-! DEFINITION. The decoder (30_encoding.md R70 to R88), total on every word and every list of bytes,
and the encoder written from the same formats (R71). -/

namespace Sys2Proof

/-! ## Fields (R70) -/

/-- `F`, bits 15 to 12. -/
def fieldF (op : Word) : Nibble := op.extractLsb' 12 4

/-- `X`, bits 11 to 8, as a register number. -/
def fieldX (op : Word) : Reg := (op.extractLsb' 8 4).toFin

/-- `Y`, bits 7 to 4, as a register number. -/
def fieldY (op : Word) : Reg := (op.extractLsb' 4 4).toFin

/-- `N`, bits 3 to 0. -/
def fieldN (op : Word) : Nibble := op.extractLsb' 0 4

/-- `NN`, bits 7 to 0. -/
def fieldNN (op : Word) : Byte := op.extractLsb' 0 8

/-- `NNN`, bits 11 to 0. -/
def fieldNNN (op : Word) : Addr := op.extractLsb' 0 12

/-! ## Decoding (R77) -/

/-- The family in which a word matches no row of the table (R85, R87). A rejected word is not an
error of the machine: `step` runs it as a no-op. -/
inductive Unrecognized where
  /-- Family 0, a word other than `00E0` and `00EE` as `FAMILY0_MATCH` matches them. -/
  | family0
  /-- `5XYN` with `N != 0`. -/
  | family5
  /-- `8XYN` with `N` in 8 to D or F. -/
  | family8
  /-- `9XYN` with `N != 0`. -/
  | family9
  /-- `EXNN` with `NN` neither 9E nor A1. -/
  | familyE
  /-- `FXNN` with `NN` none of the nine sub-operations. -/
  | familyF
  deriving DecidableEq, Repr

/-- Family 0 (R78): the two fixed words, or with `low_byte` any word with their low byte. -/
def decodeFamily0 (m : Family0Match) (op : Word) : Except Unrecognized Instr :=
  match m with
  | .exact =>
    if op = 0x00E0 then .ok .cls else if op = 0x00EE then .ok .ret else .error .family0
  | .lowByte =>
    if fieldNN op = 0xE0 then .ok .cls
    else if fieldNN op = 0xEE then .ok .ret else .error .family0

/-- Family 8: the second-level dispatch on `N` (R77). -/
def decodeFamily8 (x y : Reg) (n : Nibble) : Except Unrecognized Instr :=
  match n.toNat with
  | 0x0 => .ok (.ldReg x y)
  | 0x1 => .ok (.or x y)
  | 0x2 => .ok (.and x y)
  | 0x3 => .ok (.xor x y)
  | 0x4 => .ok (.addReg x y)
  | 0x5 => .ok (.sub x y)
  | 0x6 => .ok (.shr x y)
  | 0x7 => .ok (.subn x y)
  | 0xE => .ok (.shl x y)
  | _ => .error .family8

/-- Family E: the second-level dispatch on `NN` (R77). -/
def decodeFamilyE (x : Reg) (nn : Byte) : Except Unrecognized Instr :=
  if nn = 0x9E then .ok (.skp x) else if nn = 0xA1 then .ok (.sknp x) else .error .familyE

/-- Family F: the second-level dispatch on `NN` (R77). -/
def decodeFamilyF (x : Reg) (nn : Byte) : Except Unrecognized Instr :=
  if nn = 0x07 then .ok (.ldVxDt x)
  else if nn = 0x0A then .ok (.ldVxK x)
  else if nn = 0x15 then .ok (.ldDtVx x)
  else if nn = 0x18 then .ok (.ldStVx x)
  else if nn = 0x1E then .ok (.addIVx x)
  else if nn = 0x29 then .ok (.ldFVx x)
  else if nn = 0x33 then .ok (.ldBVx x)
  else if nn = 0x55 then .ok (.ldMemVx x)
  else if nn = 0x65 then .ok (.ldVxMem x)
  else .error .familyF

/-- The decoder, a pure function of the opcode and `FAMILY0_MATCH` (R75 to R77). -/
def decode (m : Family0Match) (op : Word) : Except Unrecognized Instr :=
  let x := fieldX op
  let y := fieldY op
  let n := fieldN op
  let nn := fieldNN op
  let nnn := fieldNNN op
  match (fieldF op).toNat with
  | 0x0 => decodeFamily0 m op
  | 0x1 => .ok (.jp nnn)
  | 0x2 => .ok (.call nnn)
  | 0x3 => .ok (.seImm x nn)
  | 0x4 => .ok (.sneImm x nn)
  | 0x5 => if n = 0 then .ok (.seReg x y) else .error .family5
  | 0x6 => .ok (.ldImm x nn)
  | 0x7 => .ok (.addImm x nn)
  | 0x8 => decodeFamily8 x y n
  | 0x9 => if n = 0 then .ok (.sneReg x y) else .error .family9
  | 0xA => .ok (.ldI nnn)
  | 0xB => .ok (.jpV0 nnn)
  | 0xC => .ok (.rnd x nn)
  | 0xD => .ok (.drw x y n)
  | 0xE => decodeFamilyE x nn
  | _ => decodeFamilyF x nn

/-! ## Bytes (20_memory.md R54) -/

/-- Why a list of bytes gives no instruction. -/
inductive DecodeError where
  /-- Fewer than the two bytes of an opcode (R70: there is one instruction length). -/
  | tooShort
  /-- The opcode matches no row of the table. -/
  | unrecognized (why : Unrecognized)
  deriving DecidableEq, Repr

/-- An opcode from its two bytes, most significant first (R54). -/
def wordOfBytes (hi lo : Byte) : Word := hi ++ lo

/-- The two bytes of an opcode, most significant first (R54, R89). -/
def bytesOfWord (op : Word) : List Byte := [op.extractLsb' 8 8, op.extractLsb' 0 8]

/-- The decoder on bytes: the instruction at the front of the list and the bytes after it. -/
def decodeBytes (m : Family0Match) : List Byte → Except DecodeError (Instr × List Byte)
  | hi :: lo :: rest =>
    match decode m (wordOfBytes hi lo) with
    | .ok i => .ok (i, rest)
    | .error why => .error (.unrecognized why)
  | _ => .error .tooShort

/-! ## Encoding (R71) -/

/-- A selector field from a register number (R70). -/
def regField (x : Reg) : Nibble := BitVec.ofFin x

/-- Format `NNN`. -/
def packNNN (f : Nibble) (nnn : Addr) : Word := f ++ nnn

/-- Formats `XNN` and `XOP`. -/
def packXNN (f : Nibble) (x : Reg) (nn : Byte) : Word := f ++ (regField x ++ nn)

/-- Format `XYN`. -/
def packXYN (f : Nibble) (x y : Reg) (n : Nibble) : Word := f ++ (regField x ++ (regField y ++ n))

/-- The opcode of an instruction, from the formats of R71 and the patterns of the table. -/
def encode : Instr → Word
  | .cls => 0x00E0
  | .ret => 0x00EE
  | .jp nnn => packNNN 0x1 nnn
  | .call nnn => packNNN 0x2 nnn
  | .seImm x nn => packXNN 0x3 x nn
  | .sneImm x nn => packXNN 0x4 x nn
  | .seReg x y => packXYN 0x5 x y 0x0
  | .ldImm x nn => packXNN 0x6 x nn
  | .addImm x nn => packXNN 0x7 x nn
  | .ldReg x y => packXYN 0x8 x y 0x0
  | .or x y => packXYN 0x8 x y 0x1
  | .and x y => packXYN 0x8 x y 0x2
  | .xor x y => packXYN 0x8 x y 0x3
  | .addReg x y => packXYN 0x8 x y 0x4
  | .sub x y => packXYN 0x8 x y 0x5
  | .shr x y => packXYN 0x8 x y 0x6
  | .subn x y => packXYN 0x8 x y 0x7
  | .shl x y => packXYN 0x8 x y 0xE
  | .sneReg x y => packXYN 0x9 x y 0x0
  | .ldI nnn => packNNN 0xA nnn
  | .jpV0 nnn => packNNN 0xB nnn
  | .rnd x nn => packXNN 0xC x nn
  | .drw x y n => packXYN 0xD x y n
  | .skp x => packXNN 0xE x 0x9E
  | .sknp x => packXNN 0xE x 0xA1
  | .ldVxDt x => packXNN 0xF x 0x07
  | .ldVxK x => packXNN 0xF x 0x0A
  | .ldDtVx x => packXNN 0xF x 0x15
  | .ldStVx x => packXNN 0xF x 0x18
  | .addIVx x => packXNN 0xF x 0x1E
  | .ldFVx x => packXNN 0xF x 0x29
  | .ldBVx x => packXNN 0xF x 0x33
  | .ldMemVx x => packXNN 0xF x 0x55
  | .ldVxMem x => packXNN 0xF x 0x65

/-- The bytes of an instruction as an assembled program stores them (R89). -/
def encodeBytes (i : Instr) : List Byte := bytesOfWord (encode i)

/-! ## The opcode table's words -/

/-- The opcode that the host's table word stands for: bits above the row's `nbits` are 0, and the
machine has one word of 16 bits (R70). -/
def tableWord (nbits w : Nat) : Word := BitVec.ofNat 16 (w % 2 ^ nbits)

/-- What the decoder reads from a word of spec/opcode_table.json laid out in bytes, under the default
`FAMILY0_MATCH`; `none` where it rejects the word. -/
def decodeTableWord (nbits w : Nat) : Option Instr :=
  match decodeBytes Machine.defaultConfig.family0Match (bytesOfWord (tableWord nbits w)) with
  | .ok (i, _) => some i
  | .error _ => none

end Sys2Proof
end

