-- ==== Sys2Proof/Machine/Fetch.lean ====
section
/-! DEFINITION. The front of a step (30_encoding.md R74): the halted test, the fetch with its range
check, the advance of `PC`, the decoding, and the no-op of an unrecognized opcode (R85). -/

namespace Sys2Proof.Machine

/-- The opcode at `PC`, most significant byte first, if both bytes are in memory (R74, 20_memory.md
R53, R54). -/
def State.fetchOpcode (s : State) : Option Word :=
  if s.inRange s.pc 2 then
    some (wordOfBytes (s.readByte s.pc.toNat) (s.readByte (s.pc.toNat + 1)))
  else none

/-- `PC <- (PC + 2) mod 2^16`, unconditional and before dispatch (R74). DESIGN CHOICE (log 27): where
`MEM_SIZE` is 65536, an instruction at 0xFFFE leaves `PC = 0` as this formula says, and the next fetch does
not fault, although 70_reset_and_hazards.md R254 has a program that runs off the end of memory fault. -/
def State.advancePc (s : State) : State := s.setPc (s.pc + 2)

/-- An unrecognized opcode changes nothing; `PC` has already advanced (R85, log 19). -/
def execUnrecognized (_why : Unrecognized) (s : State) : Outcome := .next s

/-- What a step of a halted core answers (60_exceptions.md R213, log 1). -/
def haltedOutcome (kind : FaultKind) (_s : State) : Outcome := .fault (.halted kind)

/-- The front of a step has either settled it, or found an instruction to run. -/
inductive Begun where
  | settled (o : Outcome)
  | run (i : Instr) (s : State)

/-- The front of a step (R74). -/
def beginStep (s : State) : Begun :=
  match s.fault with
  | some kind => .settled (haltedOutcome kind s)
  | none =>
    match s.fetchOpcode with
    | none => .settled (raiseFault .memoryOutOfRange s.pc s)
    | some op =>
      match decode s.cfg.family0Match op with
      | .ok i => .run i s.advancePc
      | .error why => .settled (execUnrecognized why s.advancePc)

/-- The state with `op` placed where the next step fetches it: at `PC`, and, where the fetch needs
it, with `PC` back at `ENTRY` (a `PC` out of range) and `FAULT` cleared (log 16). -/
def State.placeOpcode (s : State) (op : Word) : State :=
  let t := { s with fault := none }
  let u := if t.inRange t.pc 2 then t else t.setPc (BitVec.ofNat 16 t.cfg.entry)
  u.writeBytes u.pc.toNat (bytesOfWord op)

end Sys2Proof.Machine
end

