-- ==== Sys2Proof/Machine/Step.lean ====
section
/-! DEFINITION. One step of the core (30_encoding.md R74). -/

namespace Sys2Proof.Machine

/-- `step()`: the front of the step, then the instruction it found (R74). -/
def step (s : State) : Host.Outcome State Fault Refusal :=
  match beginStep s with
  | .settled o => o
  | .run i t => exec i t

/-- The state in which the very next step fetches and runs the table word (log 16). -/
def State.withFetchWord (s : State) (nbits w : Nat) : State := s.placeOpcode (tableWord nbits w)

end Sys2Proof.Machine
end

