-- ==== Sys2Proof/WellFormed.lean ====
section
/-! DEFINITION. The well-formedness checks. A term of `Instr` needs none: its operand types are the
field widths of 30_encoding.md R70, so every term has an encoding. What can be ill-formed is a
configuration (00_scope.md R10, last column) and a program offered to create or reset
(70_reset_and_hazards.md R242). -/

namespace Sys2Proof

/-- `FONT_BASE + FONT_SIZE <= ENTRY < MEM_SIZE <= 65536` (R10). -/
abbrev Config.layoutOk (c : Config) : Prop :=
  Config.fontBase + Config.fontSize ≤ c.entry ∧ c.entry < c.memSize ∧ c.memSize ≤ 65536

/-- `STACK_DEPTH >= 1` (R10). -/
abbrev Config.stackOk (c : Config) : Prop := 1 ≤ c.stackDepth

/-- `FB_W >= 8`, `FB_H >= 1`, each `<= 256` (R10). -/
abbrev Config.screenOk (c : Config) : Prop :=
  8 ≤ c.fbW ∧ c.fbW ≤ 256 ∧ 1 ≤ c.fbH ∧ c.fbH ≤ 256

/-- `FONT_DATA` is 80 bytes (R10). -/
abbrev Config.fontOk (c : Config) : Prop := c.fontData.length = Config.fontSize

/-- `DXY0_ROWS` is 0 or 16 (R10). -/
abbrev Config.dxy0Ok (c : Config) : Prop := c.dxy0Rows = 0 ∨ c.dxy0Rows = 16

/-- A configuration meets every constraint of R10. -/
abbrev Config.wf (c : Config) : Prop :=
  c.layoutOk ∧ c.stackOk ∧ c.screenOk ∧ c.fontOk ∧ c.dxy0Ok

/-- A program fits in `ENTRY .. MEM_SIZE-1` (R242). -/
abbrev Config.programFits (c : Config) (program : List Byte) : Prop :=
  program.length ≤ c.memSize - c.entry

end Sys2Proof
end

