-- ==== Sys2Proof/Machine/Lifecycle.lean ====
section
/-! DEFINITION. Create and reset (70_reset_and_hazards.md R240 to R245), the numeric codes of the
configuration and status registers (10_state.md R35), and the construction-time errors
(60_exceptions.md R227). -/

namespace Sys2Proof.Machine

/-- The construction-time errors (R227). They never set `FAULT`. -/
inductive LoadError where
  /-- The program is longer than `MEM_SIZE - ENTRY` bytes (R242). -/
  | romTooLarge
  /-- The I/O collaborator could not obtain the bytes (R227); the core passes it through. -/
  | romUnreadable
  deriving DecidableEq, Repr

/-- `Load(program)` (R243): every piece of state but `QUIRKS` at its reset value, the program at
`ENTRY`. The configuration and the count of free draws are not state of the spec and stay. -/
def State.load (s : State) (program : List Byte) : State :=
  State.writeBytes { initialState s.cfg s.quirks with draws := s.draws } s.cfg.entry program

/-- `create(program, quirks)` in a machine of configuration `c` (R240). `none` is the collaborator's
error in place of a program. -/
def create (c : Config) (program : Option (List Byte)) (q : Quirks) : Except LoadError State :=
  match program with
  | none => .error .romUnreadable
  | some p =>
    if c.programFits p then .ok (State.load (initialState c q) p) else .error .romTooLarge

/-- `reset(program)` (R241): on the error the machine is left as it was. -/
def resetTo (program : List Byte) (s : State) : Except LoadError State :=
  if s.cfg.programFits program then .ok (s.load program) else .error .romTooLarge

/-- The code of `QUIRKS` at the interface (R35, log 20). -/
def quirksCode : Quirks → BitVec 2
  | .chip8 => 0
  | .superchip => 1
  | .xochip => 2

/-- The mode that a code names; code 3 is not legal (R35). -/
def quirksOfCode (code : BitVec 2) : Option Quirks :=
  match code.toNat with
  | 0 => some .chip8
  | 1 => some .superchip
  | 2 => some .xochip
  | _ => none

/-- `create` offered the mode as its code: the illegal code is refused before anything is built (R35). -/
def createFromCode (c : Config) (program : Option (List Byte)) (code : BitVec 2) :
    Option (Except LoadError State) :=
  (quirksOfCode code).map (create c program)

/-- The code of `FAULT` at the interface (R35, 60_exceptions.md R212, log 20). -/
def faultCode : Option FaultKind → BitVec 2
  | none => 0
  | some .stackOverflow => 1
  | some .stackUnderflow => 2
  | some .memoryOutOfRange => 3

end Sys2Proof.Machine
end

