-- ==== Sys2Proof/Machine/Interface.lean ====
section
/-! DEFINITION. The operations of the block (10_state.md R45) and its outputs (R47). Any list of
operations is a run: the spec fixes no order and no number of steps per tick (60_exceptions.md R220,
70_reset_and_hazards.md R247). -/

namespace Sys2Proof.Machine

/-- One count down, floored at 0 (60_exceptions.md R219). -/
def countDown (w : Byte) : Byte := if w = 0 then 0 else w - 1

/-- `ST != 0`, the sound gate (R47, 60_exceptions.md R221). -/
def State.soundGate (s : State) : Bool := s.st != 0

/-- What `decay_timers()` leaves (60_exceptions.md R219); a halted core keeps everything (R213). -/
def State.decayTimers (s : State) : State :=
  match s.fault with
  | some _ => s
  | none => (s.setDt (countDown s.dt)).setSt (countDown s.st)

/-- What `decay_timers()` returns: the gate after the decrement (R219, log 21). -/
def State.decayResult (s : State) : Bool := s.decayTimers.soundGate

/-- `key_write(k, b)` (R45); it acts on a halted core too (60_exceptions.md R213). -/
def State.keyWrite (s : State) (k : Key) (b : Bool) : State := s.setKey k b

/-- `draw_ack()` (R45); it acts on a halted core too (60_exceptions.md R213). -/
def State.drawAck (s : State) : State := s.setDraw false

/-- What the renderer may read at any time (R47, 60_exceptions.md R223). -/
def State.display (s : State) : Framebuffer × Bool := (s.fb, s.draw)

/-- What `step()` returns (R45). `refused` is the model's own and never occurs. -/
inductive StepResult where
  | ok
  | fault (kind : FaultKind)
  | halted
  | refused (why : Refusal)
  deriving DecidableEq, Repr

/-- The result of `step()` (30_encoding.md R74, 60_exceptions.md R211, R213): a next state whose `FAULT`
is set is the spec's `Fault(kind)`. -/
def stepResult (s : State) : StepResult :=
  match step s with
  | .next t => match t.fault with
    | none => .ok
    | some kind => .fault kind
  | .fault (.halted _) => .halted
  | .refused why => .refused why

/-- The operations on an existing machine (R45). -/
inductive Op where
  | step
  | decayTimers
  | keyWrite (k : Key) (b : Bool)
  | drawAck
  | reset (program : List Byte)
  deriving DecidableEq, Repr

/-- The state an operation leaves, each one an atomic transition (00_scope.md R18). A halted step and
a refused reset change nothing (60_exceptions.md R213, 70_reset_and_hazards.md R241). -/
def applyOp (op : Op) (s : State) : State :=
  match op with
  | .step => match Sys2Proof.Machine.step s with
    | .next t => t
    | .fault _ => s
    | .refused _ => s
  | .decayTimers => s.decayTimers
  | .keyWrite k b => s.keyWrite k b
  | .drawAck => s.drawAck
  | .reset program => match resetTo program s with
    | .ok t => t
    | .error _ => s

/-- What an operation returns (R45, result column). -/
inductive OpResult where
  | stepped (r : StepResult)
  | gate (on : Bool)
  | nothing
  | loaded
  | refusedLoad (e : LoadError)
  deriving DecidableEq, Repr

/-- The result of an operation (R45). -/
def opResult (op : Op) (s : State) : OpResult :=
  match op with
  | .step => .stepped (stepResult s)
  | .decayTimers => .gate s.decayResult
  | .keyWrite _ _ => .nothing
  | .drawAck => .nothing
  | .reset program => match resetTo program s with
    | .ok _ => .loaded
    | .error e => .refusedLoad e

/-- A run: the operations in the order the driver and the collaborators made them (R247). -/
def runOps : List Op → State → State
  | [], s => s
  | op :: ops, s => runOps ops (applyOp op s)

end Sys2Proof.Machine
end

