-- ==== Sys2Proof/Safety.lean ====
section
/-! DEFINITION. What counts as a safe run, the invariant of the core's state, the states that a
machine can reach, and the terms in which statements say what an instruction leaves unchanged. -/

namespace Sys2Proof.Machine

/-- The core is not halted (60_exceptions.md R213). A run is safe when every state it passes is
running: a faulted session is never a successful end (92_eei_decisions.md D6). -/
def State.Running (s : State) : Prop := s.fault = none

/-- What every reachable state satisfies: a legal configuration (00_scope.md R10), memory in its
canonical form and within `MEM_SIZE` (20_memory.md R50), `SP` within the stack (10_state.md R26), and a
framebuffer of `FB_H` rows of `FB_W` pixels (10_state.md R30). -/
structure State.Inv (s : State) : Prop where
  cfgWf : s.cfg.wf
  memWf : Memory.wf s.cfg s.mem
  memBound : ∀ cell ∈ s.mem, cell.1 < s.cfg.memSize
  spBound : s.sp ≤ s.cfg.stackDepth
  stackSize : s.stack.length = s.cfg.stackDepth
  fbRows : s.fb.length = s.cfg.fbH
  fbCols : ∀ row ∈ s.fb, row.length = s.cfg.fbW

/-- The states of a machine of a legal configuration under any sequence of operations (10_state.md
R45). -/
inductive Reachable : State → Prop where
  | created (c : Config) (program : List Byte) (q : Quirks) (s : State) :
      c.wf → create c (some program) q = .ok s → Reachable s
  | applied (op : Op) (s : State) : Reachable s → Reachable (applyOp op s)

/-! ## Frames -/

/-- The parts of the state that a frame speaks of. -/
inductive Part where
  | cfg
  | mem
  | v
  | i
  | pc
  | stack
  | dt
  | st
  | fb
  | key
  | quirks
  | draw
  | fault
  | draws
  deriving DecidableEq, Repr

/-- A part is the same in two states. Memory is compared by the read of every byte. -/
def Part.Same : Part → State → State → Prop
  | .cfg, s, t => t.cfg = s.cfg
  | .mem, s, t => ∀ a, t.readByte a = s.readByte a
  | .v, s, t => ∀ r, t.readV r = s.readV r
  | .i, s, t => t.i = s.i
  | .pc, s, t => t.pc = s.pc
  | .stack, s, t => t.sp = s.sp ∧ t.stack = s.stack
  | .dt, s, t => t.dt = s.dt
  | .st, s, t => t.st = s.st
  | .fb, s, t => t.fb = s.fb
  | .key, s, t => ∀ k, t.readKey k = s.readKey k
  | .quirks, s, t => t.quirks = s.quirks
  | .draw, s, t => t.draw = s.draw
  | .fault, s, t => t.fault = s.fault
  | .draws, s, t => t.draws = s.draws

/-- From `s` to `t` nothing but the parts listed has changed. -/
def OnlyChanged (parts : List Part) (s t : State) : Prop := ∀ p, p ∉ parts → p.Same s t

/-- Every register but those listed is unchanged. -/
def RegsKept (changed : List Reg) (s t : State) : Prop := ∀ r, r ∉ changed → t.readV r = s.readV r

/-- Every byte of memory outside the `w` bytes from `a` is unchanged. -/
def MemKeptOutside (a w : Nat) (s t : State) : Prop :=
  ∀ b, b < a ∨ a + w ≤ b → t.readByte b = s.readByte b

end Sys2Proof.Machine
end

