-- ==== Sys2Proof/Certificates/Slice0/Obligations.lean ====
section
/-! DEFINITION. The statements for the provers. Each says in its docstring which rule of spec/ it
formalises. `s` is the state that `exec` gets: `PC` holds the instruction's address plus 2
(10_state.md R25). A fault of an instruction is a next state with `FAULT` latched (log 1). -/

open Sys2Proof
open Sys2Proof.Machine

/-! ## Terms of the statements -/

/-- Instruction `i` faults in `s` with `kind` (60_exceptions.md R211): `FAULT` takes the kind, `PC` goes
back to the instruction's address, nothing else changes. The outcome's form is the model's (log 1). -/
def Sys2Proof.Machine.FaultsWith (i : Instr) (kind : FaultKind) (s : State) : Prop :=
  ∃ t, exec i s = .next t ∧ t.fault = some kind ∧ t.pc = s.pc - 2 ∧ OnlyChanged [.pc, .fault] s t

/-- A flag as `VF` holds it. -/
def Sys2Proof.Machine.FlagIs (t : State) (p : Prop) : Prop :=
  (p → t.readV VF = 1) ∧ (¬ p → t.readV VF = 0)

/-- `i` leaves `w` in `V[x]` and, in `CHIP8` mode, 0 in `VF`; nothing else changes (41_alu.md R124). -/
def Sys2Proof.Machine.LogicResult (i : Instr) (x : Reg) (w : Byte) (s : State) : Prop :=
  ∃ t, exec i s = .next t ∧ t.readV x = w ∧
    (s.quirks = .chip8 → t.readV VF = 0 ∧ RegsKept [x, VF] s t) ∧
    (s.quirks ≠ .chip8 → RegsKept [x] s t) ∧ OnlyChanged [.v] s t

/-- `i` writes `VF` alone, with the flag `p` (41_alu.md R120, point 2). -/
def Sys2Proof.Machine.FlagWins (i : Instr) (p : Prop) (s : State) : Prop :=
  ∃ t, exec i s = .next t ∧ FlagIs t p ∧ RegsKept [VF] s t ∧ OnlyChanged [.v] s t

/-- What `8XY6` and `8XYE` shift (41_alu.md R129, R131). -/
def Sys2Proof.Machine.ShiftOperand (x y : Reg) (s : State) (a : Byte) : Prop :=
  (s.quirks = .chip8 → a = s.readV y) ∧ (s.quirks ≠ .chip8 → a = s.readV x)

/-- The sprite of `rows` rows has a 1 bit at the visible pixel `(py, px)` (43_display.md R173, R174). -/
def Sys2Proof.Machine.SpriteCovers (s : State) (x y : Reg) (rows py px : Nat) : Prop :=
  let x0 := (s.readV x).toNat % s.cfg.fbW
  let y0 := (s.readV y).toNat % s.cfg.fbH
  y0 ≤ py ∧ py < y0 + rows ∧ py < s.cfg.fbH ∧ x0 ≤ px ∧ px < x0 + 8 ∧ px < s.cfg.fbW ∧
    (s.readByte (s.i.toNat + (py - y0))).getLsbD (7 - (px - x0)) = true

/-- The row count of `DXYN` (43_display.md R173, R175). -/
def Sys2Proof.Machine.RowCount (s : State) (n : Nibble) (rows : Nat) : Prop :=
  (n = 0 → rows = s.cfg.dxy0Rows) ∧ (n ≠ 0 → rows = n.toNat)

/-! ## Encoding -/

/-- Every instruction, with every operand value, decodes from its own opcode, under both values of
`FAMILY0_MATCH` (30_encoding.md R71, R77). -/
def Obligations.DecodeOfEncodeIsIdentity : Prop :=
  ∀ (m : Family0Match) (i : Instr), decode m (encode i) = .ok i

/-- A word that decodes is the opcode of the instruction read from it: each word has one meaning. Under
`low_byte` (90_conflicts.md C5) the `X` nibble of a family-0 word is not looked at
(30_encoding.md R76, R77, R78). -/
def Obligations.DecodedWordIsTheOpcode : Prop :=
  (∀ (op : Word) (i : Instr), decode .exact op = .ok i → encode i = op) ∧
  (∀ (op : Word) (i : Instr), decode .lowByte op = .ok i →
    encode i = op ∨ (fieldF op = 0 ∧ encode i = op &&& 0xF0FF))

/-- Exactly which words are unrecognized, by family (30_encoding.md R77, R86, R87; the family-0 line is
the spec's own decision D9). -/
def Obligations.UnrecognizedWordsAreExactlyThese : Prop :=
  ∀ (m : Family0Match) (op : Word), (∃ why, decode m op = .error why) ↔
    (fieldF op = 0x0 ∧ m = .exact ∧ op ≠ 0x00E0 ∧ op ≠ 0x00EE) ∨
    (fieldF op = 0x0 ∧ m = .lowByte ∧ fieldNN op ≠ 0xE0 ∧ fieldNN op ≠ 0xEE) ∨
    (fieldF op = 0x5 ∧ fieldN op ≠ 0) ∨
    (fieldF op = 0x8 ∧ 7 < (fieldN op).toNat ∧ fieldN op ≠ 0xE) ∨
    (fieldF op = 0x9 ∧ fieldN op ≠ 0) ∨
    (fieldF op = 0xE ∧ fieldNN op ≠ 0x9E ∧ fieldNN op ≠ 0xA1) ∨
    (fieldF op = 0xF ∧ fieldNN op ∉ ([0x07, 0x0A, 0x15, 0x18, 0x1E, 0x29, 0x33, 0x55, 0x65] : List Byte))

/-- Words written out from the bit patterns of opcode_table.json decode to their instructions. -/
def Obligations.SampleWordsDecode : Prop :=
  decode .exact 0b0000000011101110 = .ok .ret ∧
  decode .exact 0b0010001100000000 = .ok (.call 0x300) ∧
  decode .exact 0b1000000100100111 = .ok (.subn 1 2) ∧
  decode .exact 0b1101000000010101 = .ok (.drw 0 1 5) ∧
  decode .exact 0b1110000110100001 = .ok (.sknp 1) ∧
  decode .exact 0b1111010100110011 = .ok (.ldBVx 5)

/-! ## The step -/

/-- A running core whose fetch is in range reads `MEM[PC] : MEM[PC+1]` and, where that decodes to `i`,
the step is `exec i` with `PC` advanced by 2, modulo 2^16, and nothing else done (30_encoding.md R74). That
the sum wraps at the top of a `MEM_SIZE` of 65536, against 70_reset_and_hazards.md R254, is the model's
choice (log 27). -/
def Obligations.StepRunsTheDecodedInstruction : Prop :=
  ∀ (s : State) (i : Instr), s.fault = none → s.pc.toNat + 2 ≤ s.cfg.memSize →
    decode s.cfg.family0Match (s.readByte s.pc.toNat ++ s.readByte (s.pc.toNat + 1)) = .ok i →
    step s = exec i { s with pc := s.pc + 2 }

/-- An unrecognized opcode is a no-op: the step advances `PC` by 2 and changes nothing else
(30_encoding.md R85). -/
def Obligations.UnrecognizedOpcodeIsNoOp : Prop :=
  ∀ (s : State) (why : Unrecognized), s.fault = none → s.pc.toNat + 2 ≤ s.cfg.memSize →
    decode s.cfg.family0Match (s.readByte s.pc.toNat ++ s.readByte (s.pc.toNat + 1)) = .error why →
    ∃ t, step s = .next t ∧ t.pc = s.pc + 2 ∧ OnlyChanged [.pc] s t

/-- A fetch that does not lie in memory faults and leaves `PC` where it was (30_encoding.md R74; the
check is the spec's own decision D4, the outcome's form is the model's, log 1). -/
def Obligations.FetchOutOfRangeFaults : Prop :=
  ∀ s : State, s.fault = none → s.cfg.memSize < s.pc.toNat + 2 →
    ∃ t, step s = .next t ∧ t.fault = some .memoryOutOfRange ∧ OnlyChanged [.fault] s t

/-- A halted core: the step stops and the timers stand (60_exceptions.md R213, the spec's own decision D6;
the outcome's form is the model's, log 1). The two collaborator writes act on every core, running or halted:
`key_write` writes its one latch and `draw_ack` clears `DRAW` (10_state.md R45, the spec's own decisions D24
and D29). -/
def Obligations.HaltedCoreStands : Prop :=
  (∀ (s : State) (kind : FaultKind), s.fault = some kind →
    step s = .fault (.halted kind) ∧ stepResult s = .halted ∧ applyOp .step s = s ∧
    applyOp .decayTimers s = s ∧ s.decayResult = decide (s.st ≠ 0)) ∧
  (∀ (s : State) (k : Key) (b : Bool), opResult (.keyWrite k b) s = .nothing ∧
    (applyOp (.keyWrite k b) s).readKey k = b ∧
    (∀ j, j ≠ k → (applyOp (.keyWrite k b) s).readKey j = s.readKey j) ∧
    OnlyChanged [.key] s (applyOp (.keyWrite k b) s)) ∧
  (∀ s : State, opResult .drawAck s = .nothing ∧ (applyOp .drawAck s).draw = false ∧
    OnlyChanged [.draw] s (applyOp .drawAck s))

/-- A running core always completes its step with a next state, whatever memory holds (30_encoding.md R74,
R85). That a step which faults answers a next state too, the one with `FAULT` latched, is the model's choice
of outcome (log 1): the spec has it return `Fault(kind)` (60_exceptions.md R211, its own decision D6). -/
def Obligations.RunningStepAlwaysAnswersNext : Prop :=
  ∀ s : State, s.fault = none → ∃ t, step s = .next t

/-- Faults are precise: when a running core's step ends with `FAULT` set, `FAULT` is the only thing that
changed, `PC` included (60_exceptions.md R211, the spec's own decision D6; log 1, log 11). -/
def Obligations.FaultsArePrecise : Prop :=
  ∀ s t : State, s.fault = none → step s = .next t → t.fault ≠ none →
    t = { s with fault := t.fault }

/-- Which instruction raises which fault, and when: the table of 60_exceptions.md R212 without its fetch
row (the full-width checks are the spec's own decisions D11 and D25; log 1, log 13). -/
def Obligations.FaultConditionsAreExactlyThese : Prop :=
  ∀ (i : Instr) (s : State), s.fault = none → ∃ t, exec i s = .next t ∧
    (t.fault = some .stackOverflow ↔ ∃ nnn, i = .call nnn ∧ s.sp = s.cfg.stackDepth) ∧
    (t.fault = some .stackUnderflow ↔ i = .ret ∧ s.sp = 0) ∧
    (t.fault = some .memoryOutOfRange ↔
      (∃ x, i = .ldBVx x ∧ s.cfg.memSize < s.i.toNat + 3) ∨
      (∃ x, i = .ldMemVx x ∧ s.cfg.memSize < s.i.toNat + (x.val + 1)) ∨
      (∃ x, i = .ldVxMem x ∧ s.cfg.memSize < s.i.toNat + (x.val + 1)) ∨
      (∃ x y n rows, i = .drw x y n ∧ RowCount s n rows ∧ s.cfg.memSize < s.i.toNat + rows))

/-! ## Control transfer and skips -/

/-- `1NNN` and `BNNN`: the target is the zero-extended literal, plus `V[0]` for `BNNN`, without wrap
(40_flow.md R102, R108). -/
def Obligations.JumpsWritePc : Prop :=
  (∀ m nnn, decode m (packNNN 0x1 nnn) = .ok (.jp nnn)) ∧
  (∀ m nnn, decode m (packNNN 0xB nnn) = .ok (.jpV0 nnn)) ∧
  (∀ nnn s, ∃ t, exec (.jp nnn) s = .next t ∧ t.pc.toNat = nnn.toNat ∧ OnlyChanged [.pc] s t) ∧
  (∀ nnn s, ∃ t, exec (.jpV0 nnn) s = .next t ∧ t.pc.toNat = nnn.toNat + (s.readV 0).toNat ∧
    OnlyChanged [.pc] s t)

/-- `2NNN`: with room on the stack, the return address goes to `STACK[SP]`, `SP` rises by one and `PC`
takes the target; with a full stack it faults (40_flow.md R103, 10_state.md R27; the fault's form is the
model's, log 1). -/
def Obligations.CallPushesReturnAddress : Prop :=
  (∀ m nnn, decode m (packNNN 0x2 nnn) = .ok (.call nnn)) ∧
  (∀ nnn s, s.Inv → s.sp ≠ s.cfg.stackDepth →
    ∃ t, exec (.call nnn) s = .next t ∧ t.pc.toNat = nnn.toNat ∧ t.sp = s.sp + 1 ∧
      t.stackEntry s.sp = s.pc ∧ (∀ j, j ≠ s.sp → t.stackEntry j = s.stackEntry j) ∧
      OnlyChanged [.pc, .stack] s t) ∧
  (∀ nnn s, s.sp = s.cfg.stackDepth → FaultsWith (.call nnn) .stackOverflow s)

/-- `00EE`: with an entry on the stack, `PC` takes the top one and `SP` falls by one; with an empty stack
it faults (40_flow.md R101, 10_state.md R28; the family-0 option is the spec's own decision D9, the fault's
form is the model's, log 1). -/
def Obligations.ReturnPopsTheTopEntry : Prop :=
  (∀ m, decode m 0x00EE = .ok .ret) ∧
  (∀ x, decode .lowByte (packXNN 0x0 x 0xEE) = .ok .ret) ∧
  (∀ s, s.sp ≠ 0 → ∃ t, exec .ret s = .next t ∧ t.pc = s.stackEntry (s.sp - 1) ∧ t.sp = s.sp - 1 ∧
    t.stack = s.stack ∧ OnlyChanged [.pc, .stack] s t) ∧
  (∀ s, s.sp = 0 → FaultsWith .ret .stackUnderflow s)

/-- `00EE` after `2NNN`, at any depth: whatever ran in between, if the stack is back at the callee's depth
with its entry in place, the return lands on the instruction after the call (40_flow.md R103). -/
def Obligations.ReturnUndoesCall : Prop :=
  ∀ (nnn : Addr) (s t u : State), s.Inv → s.sp ≠ s.cfg.stackDepth → exec (.call nnn) s = .next t →
    u.sp = t.sp → u.stackEntry s.sp = t.stackEntry s.sp →
    ∃ w, exec .ret u = .next w ∧ w.pc = s.pc ∧ w.sp = s.sp

/-- `3XNN` and `4XNN` (40_flow.md R104, R105; a skip is R100). -/
def Obligations.ImmediateSkips : Prop :=
  (∀ m x nn, decode m (packXNN 0x3 x nn) = .ok (.seImm x nn)) ∧
  (∀ m x nn, decode m (packXNN 0x4 x nn) = .ok (.sneImm x nn)) ∧
  (∀ x nn s, ∃ t, exec (.seImm x nn) s = .next t ∧
    (s.readV x = nn → t.pc = s.pc + 2) ∧ (s.readV x ≠ nn → t.pc = s.pc) ∧ OnlyChanged [.pc] s t) ∧
  (∀ x nn s, ∃ t, exec (.sneImm x nn) s = .next t ∧
    (s.readV x ≠ nn → t.pc = s.pc + 2) ∧ (s.readV x = nn → t.pc = s.pc) ∧ OnlyChanged [.pc] s t)

/-- `5XY0` and `9XY0`; with another low nibble the word is unrecognized (40_flow.md R106, R107). -/
def Obligations.RegisterSkips : Prop :=
  (∀ m x y, decode m (packXYN 0x5 x y 0) = .ok (.seReg x y)) ∧
  (∀ m x y n, n ≠ 0 → decode m (packXYN 0x5 x y n) = .error .family5) ∧
  (∀ m x y, decode m (packXYN 0x9 x y 0) = .ok (.sneReg x y)) ∧
  (∀ m x y n, n ≠ 0 → decode m (packXYN 0x9 x y n) = .error .family9) ∧
  (∀ x y s, ∃ t, exec (.seReg x y) s = .next t ∧
    (s.readV x = s.readV y → t.pc = s.pc + 2) ∧ (s.readV x ≠ s.readV y → t.pc = s.pc) ∧
    OnlyChanged [.pc] s t) ∧
  (∀ x y s, ∃ t, exec (.sneReg x y) s = .next t ∧
    (s.readV x ≠ s.readV y → t.pc = s.pc + 2) ∧ (s.readV x = s.readV y → t.pc = s.pc) ∧
    OnlyChanged [.pc] s t)

/-! ## Loads and ALU -/

/-- `6XNN` (41_alu.md R121). -/
def Obligations.LoadImmediate : Prop :=
  (∀ m x nn, decode m (packXNN 0x6 x nn) = .ok (.ldImm x nn)) ∧
  (∀ x nn s, ∃ t, exec (.ldImm x nn) s = .next t ∧ t.readV x = nn ∧ RegsKept [x] s t ∧
    OnlyChanged [.v] s t)

/-- `7XNN`: wraps modulo 256, no flag (41_alu.md R122). -/
def Obligations.AddImmediateWrapsWithoutFlag : Prop :=
  (∀ m x nn, decode m (packXNN 0x7 x nn) = .ok (.addImm x nn)) ∧
  (∀ x nn s, ∃ t, exec (.addImm x nn) s = .next t ∧
    (t.readV x).toNat = ((s.readV x).toNat + nn.toNat) % 256 ∧ RegsKept [x] s t ∧ OnlyChanged [.v] s t)

/-- `8XY0` (41_alu.md R123). -/
def Obligations.RegisterMove : Prop :=
  (∀ m x y, decode m (packXYN 0x8 x y 0x0) = .ok (.ldReg x y)) ∧
  (∀ x y s, ∃ t, exec (.ldReg x y) s = .next t ∧ t.readV x = s.readV y ∧ RegsKept [x] s t ∧
    OnlyChanged [.v] s t)

/-- `8XY1`, `8XY2`, `8XY3`: the result, and `VF <- 0` in `CHIP8` mode only (41_alu.md R124 to R126). The
one form left out here, `X = F` in `CHIP8` mode, is in `FlagIsWrittenLast`. -/
def Obligations.BitwiseInstructions : Prop :=
  (∀ m x y, decode m (packXYN 0x8 x y 0x1) = .ok (.or x y)) ∧
  (∀ m x y, decode m (packXYN 0x8 x y 0x2) = .ok (.and x y)) ∧
  (∀ m x y, decode m (packXYN 0x8 x y 0x3) = .ok (.xor x y)) ∧
  (∀ (x y : Reg) (s : State), (x ≠ VF ∨ s.quirks ≠ .chip8) →
    LogicResult (.or x y) x (s.readV x ||| s.readV y) s ∧
    LogicResult (.and x y) x (s.readV x &&& s.readV y) s ∧
    LogicResult (.xor x y) x (s.readV x ^^^ s.readV y) s)

/-- `8XY4`: `VF` is 1 iff the unwrapped sum exceeds 255 (41_alu.md R127). `X = F` is in
`FlagIsWrittenLast`. -/
def Obligations.AddSetsCarry : Prop :=
  (∀ m x y, decode m (packXYN 0x8 x y 0x4) = .ok (.addReg x y)) ∧
  (∀ (x y : Reg) (s : State), x ≠ VF → ∃ t, exec (.addReg x y) s = .next t ∧
    (t.readV x).toNat = ((s.readV x).toNat + (s.readV y).toNat) % 256 ∧
    FlagIs t (255 < (s.readV x).toNat + (s.readV y).toNat) ∧ RegsKept [x, VF] s t ∧ OnlyChanged [.v] s t)

/-- `8XY5`: `VF` is 1 iff no borrow (41_alu.md R128). `X = F` is in `FlagIsWrittenLast`. -/
def Obligations.SubtractSetsNoBorrow : Prop :=
  (∀ m x y, decode m (packXYN 0x8 x y 0x5) = .ok (.sub x y)) ∧
  (∀ (x y : Reg) (s : State), x ≠ VF → ∃ t, exec (.sub x y) s = .next t ∧
    ((t.readV x).toNat : Int) = ((s.readV x).toNat - (s.readV y).toNat : Int) % 256 ∧
    FlagIs t ((s.readV y).toNat ≤ (s.readV x).toNat) ∧ RegsKept [x, VF] s t ∧ OnlyChanged [.v] s t)

/-- `8XY6`: the operand by mode, halved; `VF` its bit 0 (41_alu.md R129). `X = F` is in
`FlagIsWrittenLast`. -/
def Obligations.ShiftRightByMode : Prop :=
  (∀ m x y, decode m (packXYN 0x8 x y 0x6) = .ok (.shr x y)) ∧
  (∀ (x y : Reg) (s : State) (a : Byte), x ≠ VF → ShiftOperand x y s a →
    ∃ t, exec (.shr x y) s = .next t ∧ (t.readV x).toNat = a.toNat / 2 ∧
      FlagIs t (a.toNat % 2 = 1) ∧ RegsKept [x, VF] s t ∧ OnlyChanged [.v] s t)

/-- `8XYE`: the operand by mode, doubled modulo 256; `VF` its bit 7 (41_alu.md R131). `X = F` is in
`FlagIsWrittenLast`. -/
def Obligations.ShiftLeftByMode : Prop :=
  (∀ m x y, decode m (packXYN 0x8 x y 0xE) = .ok (.shl x y)) ∧
  (∀ (x y : Reg) (s : State) (a : Byte), x ≠ VF → ShiftOperand x y s a →
    ∃ t, exec (.shl x y) s = .next t ∧ (t.readV x).toNat = 2 * a.toNat % 256 ∧
      FlagIs t (128 ≤ a.toNat) ∧ RegsKept [x, VF] s t ∧ OnlyChanged [.v] s t)

/-- `8XY7`: the difference goes to the register `SUBN_DEST` names, `VF` is 1 iff no borrow (41_alu.md R130,
the spec's own decision D8, both values of the option; log 6). The destination `VF` is in
`FlagIsWrittenLast`. -/
def Obligations.ReverseSubtractByOption : Prop :=
  (∀ m x y, decode m (packXYN 0x8 x y 0x7) = .ok (.subn x y)) ∧
  (∀ (x y d : Reg) (s : State), d ≠ VF →
    (s.cfg.subnDest = .vy → d = y) → (s.cfg.subnDest = .vx → d = x) →
    ∃ t, exec (.subn x y) s = .next t ∧
      ((t.readV d).toNat : Int) = ((s.readV y).toNat - (s.readV x).toNat : Int) % 256 ∧
      FlagIs t ((s.readV x).toNat ≤ (s.readV y).toNat) ∧ RegsKept [d, VF] s t ∧ OnlyChanged [.v] s t)

/-- When the result register of a flag-writing instruction is `VF`, `VF` ends holding the flag and the
result is lost (41_alu.md R120 point 2, the spec's own decision D7; log 14). -/
def Obligations.FlagIsWrittenLast : Prop :=
  ∀ (y : Reg) (s : State),
    (s.quirks = .chip8 → FlagWins (.or VF y) False s ∧ FlagWins (.and VF y) False s ∧
      FlagWins (.xor VF y) False s) ∧
    FlagWins (.addReg VF y) (255 < (s.readV VF).toNat + (s.readV y).toNat) s ∧
    FlagWins (.sub VF y) ((s.readV y).toNat ≤ (s.readV VF).toNat) s ∧
    (∀ a, ShiftOperand VF y s a → FlagWins (.shr VF y) (a.toNat % 2 = 1) s ∧
      FlagWins (.shl VF y) (128 ≤ a.toNat) s) ∧
    (s.cfg.subnDest = .vx → FlagWins (.subn VF y) ((s.readV VF).toNat ≤ (s.readV y).toNat) s) ∧
    (s.cfg.subnDest = .vy → FlagWins (.subn y VF) ((s.readV y).toNat ≤ (s.readV VF).toNat) s)

/-- `CXNN`: the drawn byte masked (41_alu.md R132, the spec's own decision D17). The draw is a free value:
`Config.drawByte` has no body, so this holds for every byte (log 5). -/
def Obligations.RandomIsADrawMasked : Prop :=
  (∀ m x nn, decode m (packXNN 0xC x nn) = .ok (.rnd x nn)) ∧
  (∀ x nn s, ∃ t, exec (.rnd x nn) s = .next t ∧ t.readV x = Config.drawByte s.draws &&& nn ∧
    t.draws = s.draws + 1 ∧ RegsKept [x] s t ∧ OnlyChanged [.v, .draws] s t)

/-! ## Index register and memory transfers -/

/-- `ANNN` (42_index_memory.md R150). -/
def Obligations.LoadIndex : Prop :=
  (∀ m nnn, decode m (packNNN 0xA nnn) = .ok (.ldI nnn)) ∧
  (∀ nnn s, ∃ t, exec (.ldI nnn) s = .next t ∧ t.i.toNat = nnn.toNat ∧ OnlyChanged [.i] s t)

/-- `FX1E`: modulo 2^16, `VF` not changed (42_index_memory.md R151). -/
def Obligations.AddToIndexWraps : Prop :=
  (∀ m x, decode m (packXNN 0xF x 0x1E) = .ok (.addIVx x)) ∧
  (∀ x s, ∃ t, exec (.addIVx x) s = .next t ∧ t.i.toNat = (s.i.toNat + (s.readV x).toNat) % 65536 ∧
    OnlyChanged [.i] s t)

/-- `FX29`: five times the whole of `V[X]`, never a wrap (42_index_memory.md R152). -/
def Obligations.FontIndexIsFiveTimes : Prop :=
  (∀ m x, decode m (packXNN 0xF x 0x29) = .ok (.ldFVx x)) ∧
  (∀ x s, ∃ t, exec (.ldFVx x) s = .next t ∧ t.i.toNat = (s.readV x).toNat * 5 ∧ OnlyChanged [.i] s t)

/-- `FX33`: in range, the three digits at `I`, `I+1`, `I+2` and no other byte; out of range a fault
(42_index_memory.md R153; the check without wrap is the spec's own decision D25, the fault's form is the
model's, log 1). -/
def Obligations.BcdStoresThreeDigits : Prop :=
  (∀ m x, decode m (packXNN 0xF x 0x33) = .ok (.ldBVx x)) ∧
  (∀ x s, s.i.toNat + 3 ≤ s.cfg.memSize → ∃ t, exec (.ldBVx x) s = .next t ∧
    (t.readByte s.i.toNat).toNat = (s.readV x).toNat / 100 ∧
    (t.readByte (s.i.toNat + 1)).toNat = (s.readV x).toNat / 10 % 10 ∧
    (t.readByte (s.i.toNat + 2)).toNat = (s.readV x).toNat % 10 ∧
    MemKeptOutside s.i.toNat 3 s t ∧ OnlyChanged [.mem] s t) ∧
  (∀ x s, s.cfg.memSize < s.i.toNat + 3 → FaultsWith (.ldBVx x) .memoryOutOfRange s)

/-- `FX55`: in range, `V[0..X]` at `I .. I+X` and no other byte, `I` stepped in `CHIP8` mode only; out of
range a fault (42_index_memory.md R154; the check without wrap is the spec's own decision D25, the fault's
form is the model's, log 1). -/
def Obligations.DumpStoresRegisters : Prop :=
  (∀ m x, decode m (packXNN 0xF x 0x55) = .ok (.ldMemVx x)) ∧
  (∀ (x : Reg) (s : State), s.i.toNat + (x.val + 1) ≤ s.cfg.memSize →
    ∃ t, exec (.ldMemVx x) s = .next t ∧
      (∀ r : Reg, r ≤ x → t.readByte (s.i.toNat + r.val) = s.readV r) ∧
      MemKeptOutside s.i.toNat (x.val + 1) s t ∧
      (s.quirks = .chip8 → t.i = s.i + BitVec.ofNat 16 (x.val + 1)) ∧
      (s.quirks ≠ .chip8 → t.i = s.i) ∧ OnlyChanged [.mem, .i] s t) ∧
  (∀ (x : Reg) (s : State), s.cfg.memSize < s.i.toNat + (x.val + 1) →
    FaultsWith (.ldMemVx x) .memoryOutOfRange s)

/-- `FX65`: in range, `V[0..X]` from `I .. I+X`, the registers above `X` and memory unchanged, `I` stepped
in `CHIP8` mode only; out of range a fault (42_index_memory.md R155; the check without wrap is the spec's
own decision D25, the fault's form is the model's, log 1). -/
def Obligations.LoadReadsRegisters : Prop :=
  (∀ m x, decode m (packXNN 0xF x 0x65) = .ok (.ldVxMem x)) ∧
  (∀ (x : Reg) (s : State), s.i.toNat + (x.val + 1) ≤ s.cfg.memSize →
    ∃ t, exec (.ldVxMem x) s = .next t ∧
      (∀ r : Reg, r ≤ x → t.readV r = s.readByte (s.i.toNat + r.val)) ∧
      (∀ r : Reg, x < r → t.readV r = s.readV r) ∧
      (s.quirks = .chip8 → t.i = s.i + BitVec.ofNat 16 (x.val + 1)) ∧
      (s.quirks ≠ .chip8 → t.i = s.i) ∧ OnlyChanged [.v, .i] s t) ∧
  (∀ (x : Reg) (s : State), s.cfg.memSize < s.i.toNat + (x.val + 1) →
    FaultsWith (.ldVxMem x) .memoryOutOfRange s)

/-- Dumping `V[0..X]` and reloading them from the same place, whatever the registers held in between,
brings the original values back (42_index_memory.md R155, the round trip of the source). -/
def Obligations.DumpThenLoadRestoresRegisters : Prop :=
  ∀ (x : Reg) (s t u : State), s.i.toNat + (x.val + 1) ≤ s.cfg.memSize →
    exec (.ldMemVx x) s = .next t → u.cfg = t.cfg → u.mem = t.mem → u.i = s.i →
    ∃ w, exec (.ldVxMem x) u = .next w ∧ ∀ r : Reg, r ≤ x → w.readV r = s.readV r

/-! ## Display -/

/-- `00E0`: every pixel off, `DRAW` set, `VF` and all else unchanged (43_display.md R172; the family-0
option is the spec's own decision D9). -/
def Obligations.ClearScreen : Prop :=
  (∀ m, decode m 0x00E0 = .ok .cls) ∧
  (∀ x, decode .lowByte (packXNN 0x0 x 0xE0) = .ok .cls) ∧
  (∀ s, ∃ t, exec .cls s = .next t ∧ (∀ py px, t.pixel py px = false) ∧ t.fb.length = s.cfg.fbH ∧
    (∀ row ∈ t.fb, row.length = s.cfg.fbW) ∧ t.draw = true ∧ OnlyChanged [.fb, .draw] s t)

/-- `DXYN`: in range, exactly the visible pixels under a 1 bit of the sprite are toggled, `VF` says whether
one of them was on, `DRAW` is set; out of range a fault (43_display.md R173, R174, R175). The row count of
`N = 0`, the full-width check and the bit order are the spec's own decisions D10, D11, D12; the fault's form
is the model's (log 1, 8, 13, 18). -/
def Obligations.DrawXorsTheVisibleSprite : Prop :=
  (∀ m x y n, decode m (packXYN 0xD x y n) = .ok (.drw x y n)) ∧
  (∀ (x y : Reg) (n : Nibble) (rows : Nat) (s : State), s.Inv → RowCount s n rows →
    s.i.toNat + rows ≤ s.cfg.memSize → ∃ t, exec (.drw x y n) s = .next t ∧
      (∀ py px, SpriteCovers s x y rows py px → t.pixel py px = !s.pixel py px) ∧
      (∀ py px, ¬ SpriteCovers s x y rows py px → t.pixel py px = s.pixel py px) ∧
      FlagIs t (∃ py px, SpriteCovers s x y rows py px ∧ s.pixel py px = true) ∧
      t.draw = true ∧ RegsKept [VF] s t ∧ OnlyChanged [.fb, .v, .draw] s t) ∧
  (∀ (x y : Reg) (n : Nibble) (rows : Nat) (s : State), RowCount s n rows →
    s.cfg.memSize < s.i.toNat + rows → FaultsWith (.drw x y n) .memoryOutOfRange s)

/-- Drawing the same sprite at the same place twice brings the framebuffer back, and `VF` reflects the
second draw's collisions only: it is 1 exactly when a visible 1 bit lies on a pixel that was off before the
first draw (43_display.md R176, the source's words; log 26 says where R176's own derivation differs; the
draw rests on D10 to D12). The place is the same when the coordinate registers are: `VF` may be one. -/
def Obligations.DrawingTwiceRestoresTheScreen : Prop :=
  ∀ (x y : Reg) (n : Nibble) (rows : Nat) (s t : State), s.Inv → RowCount s n rows →
    s.i.toNat + rows ≤ s.cfg.memSize → exec (.drw x y n) s = .next t →
    t.readV x = s.readV x → t.readV y = s.readV y →
    ∃ u, exec (.drw x y n) t = .next u ∧ u.fb = s.fb ∧
      FlagIs u (∃ py px, SpriteCovers s x y rows py px ∧ s.pixel py px = false)

/-- The last clause of 43_display.md R176 as it is written there: after the second draw `VF` is 1 exactly
when the sprite has a visible 1 bit, whatever the screen held before. It is expected to fail: a visible
bit over a pixel that was on goes off in the first draw and meets an off pixel in the second (log 26). -/
def Obligations.DrawingTwiceFlagAsDerivedInTheSpec : Prop :=
  ∀ (x y : Reg) (n : Nibble) (rows : Nat) (s t u : State), s.Inv → RowCount s n rows →
    exec (.drw x y n) s = .next t → t.fault = none → t.readV x = s.readV x → t.readV y = s.readV y →
    exec (.drw x y n) t = .next u → FlagIs u (∃ py px, SpriteCovers s x y rows py px)

/-! ## Keys and timers -/

/-- `EX9E` and `EXA1` with `V[X]` below 16: the latch is read and kept (44_keys_timers.md R191, R192; a skip
is 40_flow.md R100). -/
def Obligations.KeySkipsReadTheLatch : Prop :=
  (∀ m x, decode m (packXNN 0xE x 0x9E) = .ok (.skp x)) ∧
  (∀ m x, decode m (packXNN 0xE x 0xA1) = .ok (.sknp x)) ∧
  (∀ (x : Reg) (k : Key) (s : State), (s.readV x).toNat = k.val →
    (∃ t, exec (.skp x) s = .next t ∧ (s.readKey k = true → t.pc = s.pc + 2) ∧
      (s.readKey k = false → t.pc = s.pc) ∧ OnlyChanged [.pc] s t) ∧
    (∃ t, exec (.sknp x) s = .next t ∧ (s.readKey k = false → t.pc = s.pc + 2) ∧
      (s.readKey k = true → t.pc = s.pc) ∧ OnlyChanged [.pc] s t))

/-- `EX9E` and `EXA1` with `V[X]` of 16 or more, for each value of `KEY_OOR` (44_keys_timers.md R190, the
spec's own decision D13; log 9). The drawn bit is a free value: `Config.drawBit` has no body (log 5). -/
def Obligations.KeySkipsBeyondTheKeypad : Prop :=
  ∀ (x : Reg) (s : State) (pressed : Bool), 16 ≤ (s.readV x).toNat →
    (s.cfg.keyOor = .draw → pressed = Config.drawBit s.draws) →
    (s.cfg.keyOor = .lowNibble → ∀ k : Key, k.val = (s.readV x).toNat % 16 → pressed = s.readKey k) →
    (s.cfg.keyOor = .notPressed → pressed = false) →
    (∃ t, exec (.skp x) s = .next t ∧ (pressed = true → t.pc = s.pc + 2) ∧
      (pressed = false → t.pc = s.pc) ∧ (s.cfg.keyOor = .draw → t.draws = s.draws + 1) ∧
      (s.cfg.keyOor ≠ .draw → t.draws = s.draws) ∧ OnlyChanged [.pc, .draws] s t) ∧
    (∃ t, exec (.sknp x) s = .next t ∧ (pressed = false → t.pc = s.pc + 2) ∧
      (pressed = true → t.pc = s.pc) ∧ (s.cfg.keyOor = .draw → t.draws = s.draws + 1) ∧
      (s.cfg.keyOor ≠ .draw → t.draws = s.draws) ∧ OnlyChanged [.pc, .draws] s t)

/-- `FX07` (44_keys_timers.md R193). -/
def Obligations.ReadDelayTimer : Prop :=
  (∀ m x, decode m (packXNN 0xF x 0x07) = .ok (.ldVxDt x)) ∧
  (∀ x s, ∃ t, exec (.ldVxDt x) s = .next t ∧ t.readV x = s.dt ∧ RegsKept [x] s t ∧ OnlyChanged [.v] s t)

/-- `FX15` and `FX18`: the timer takes `V[X]` (44_keys_timers.md R195, R196), and the sound gate follows `ST`
at once (10_state.md R47, the spec's own decision D32; that nothing reads `ST` back is in `SoundTimerIsWriteOnly`). -/
def Obligations.SetTimers : Prop :=
  (∀ m x, decode m (packXNN 0xF x 0x15) = .ok (.ldDtVx x)) ∧
  (∀ m x, decode m (packXNN 0xF x 0x18) = .ok (.ldStVx x)) ∧
  (∀ x s, ∃ t, exec (.ldDtVx x) s = .next t ∧ t.dt = s.readV x ∧ OnlyChanged [.dt] s t) ∧
  (∀ x s, ∃ t, exec (.ldStVx x) s = .next t ∧ t.st = s.readV x ∧
    (t.soundGate = true ↔ s.readV x ≠ 0) ∧ OnlyChanged [.st] s t)

/-- `FX0A` with a key latched: the lowest one is stored, and its latch cleared where `FX0A_CLEARS_LATCH`
says so (44_keys_timers.md R194, the spec's own decisions D14 and D15; log 10). -/
def Obligations.KeyWaitAcceptsTheLowestKey : Prop :=
  (∀ m x, decode m (packXNN 0xF x 0x0A) = .ok (.ldVxK x)) ∧
  (∀ (x : Reg) (k : Key) (s : State), s.readKey k = true → (∀ j, j < k → s.readKey j = false) →
    ∃ t, exec (.ldVxK x) s = .next t ∧ (t.readV x).toNat = k.val ∧ RegsKept [x] s t ∧
      (s.cfg.fx0aClearsLatch = true → t.readKey k = false) ∧
      (s.cfg.fx0aClearsLatch = false → t.readKey k = true) ∧
      (∀ j, j ≠ k → t.readKey j = s.readKey j) ∧ OnlyChanged [.v, .key] s t)

/-- `FX0A` with no key latched rewinds `PC`, so that the whole step changes nothing at all
(44_keys_timers.md R194). -/
def Obligations.KeyWaitHoldsWithoutAKey : Prop :=
  (∀ x s, (∀ k, s.readKey k = false) →
    ∃ t, exec (.ldVxK x) s = .next t ∧ t.pc = s.pc - 2 ∧ OnlyChanged [.pc] s t) ∧
  (∀ (x : Reg) (s : State), s.fault = none → s.pc.toNat + 2 ≤ s.cfg.memSize →
    s.readByte s.pc.toNat ++ s.readByte (s.pc.toNat + 1) = packXNN 0xF x 0x0A →
    (∀ k, s.readKey k = false) → step s = .next s)

/-- `decay_timers()`: each timer down by at most one, floored at 0, and the gate after that; nothing else
(60_exceptions.md R219; the moment of the returned gate is the spec's own decision D16, log 21). -/
def Obligations.DecayCountsBothTimersDown : Prop :=
  ∀ s : State, s.fault = none →
    s.decayTimers.dt.toNat = s.dt.toNat - 1 ∧ s.decayTimers.st.toNat = s.st.toNat - 1 ∧
    (s.decayResult = true ↔ s.decayTimers.st ≠ 0) ∧ OnlyChanged [.dt, .st] s s.decayTimers

/-! ## Create and reset -/

/-- What `create` leaves in every piece of state (10_state.md R37, 70_reset_and_hazards.md R240, R243; the
font bytes are a configuration value, the spec's own decision D3, log 4). -/
def Obligations.CreateLoadsTheMachine : Prop :=
  ∀ (c : Config) (p : List Byte) (q : Quirks), c.wf → p.length ≤ c.memSize - c.entry →
    ∃ s, create c (some p) q = .ok s ∧
      (∀ a, a < 80 → s.readByte a = c.fontData.getD a 0) ∧
      (∀ j, j < p.length → s.readByte (c.entry + j) = p.getD j 0) ∧
      (∀ a, 80 ≤ a → (a < c.entry ∨ c.entry + p.length ≤ a) → s.readByte a = 0) ∧
      (∀ r, s.readV r = 0) ∧ s.i = 0 ∧ s.pc.toNat = c.entry ∧ s.sp = 0 ∧ (∀ j, s.stackEntry j = 0) ∧
      s.dt = 0 ∧ s.st = 0 ∧ (∀ py px, s.pixel py px = false) ∧ (∀ k, s.readKey k = false) ∧
      s.draw = false ∧ s.fault = none ∧ s.quirks = q ∧ s.cfg = c

/-- When `create` fails (70_reset_and_hazards.md R240, R242; 60_exceptions.md R227; that an empty program is
accepted is the spec's own decision D21), and that code 3 names no mode, so a `create` offered it builds
nothing (10_state.md R35; the codes are the spec's own decision D1, their functions beside the state are the
model's, log 20). -/
def Obligations.CreateFailsExactlyWhen : Prop :=
  (∀ c q, create c none q = .error .romUnreadable) ∧
  (∀ c p q, create c (some p) q = .error .romTooLarge ↔ c.memSize - c.entry < p.length) ∧
  (∀ c q, ∃ s, create c (some []) q = .ok s) ∧
  (∀ c p, createFromCode c p 3 = none)

/-- `reset` leaves what `create` would in the same mode, keeps the mode, leaves the halted state, and changes
nothing when the program is too long (70_reset_and_hazards.md R241; the failing case is the spec's own
decision D20, log 23). The count of free draws is the model's own and stays (log 5). -/
def Obligations.ResetKeepsOnlyTheMode : Prop :=
  (∀ (s : State) (p : List Byte), p.length ≤ s.cfg.memSize - s.cfg.entry →
    ∃ u, create s.cfg (some p) s.quirks = .ok u ∧ applyOp (.reset p) s = { u with draws := s.draws } ∧
      (applyOp (.reset p) s).quirks = s.quirks ∧ (applyOp (.reset p) s).fault = none ∧
      opResult (.reset p) s = .loaded) ∧
  (∀ (s : State) (p : List Byte), s.cfg.memSize - s.cfg.entry < p.length →
    applyOp (.reset p) s = s ∧ opResult (.reset p) s = .refusedLoad .romTooLarge)

/-! ## Invariants and whole-machine rules -/

/-- The state after reset is what `create` of an empty program leaves (10_state.md R37, 70_reset_and_hazards.md
R243) in the default configuration (00_scope.md R10) and in `CHIP8` mode, the model's own choice (log 2,
log 3), and it satisfies the invariant, whose canonical memory is the model's form (log 15). -/
def Obligations.ResetStateIsCreatedAndMeetsInv : Prop :=
  create defaultConfig (some []) .chip8 = .ok State.reset ∧ State.reset.Inv

/-- Every step keeps the invariant: `SP` stays inside the stack (10_state.md R26), the framebuffer keeps its
shape (R30), memory lists no address outside `MEM_SIZE` (20_memory.md R50), and the configuration stays legal
(00_scope.md R10). That memory is a list in canonical form is the model's own choice (log 15), and so is the
configuration as a field of the state (log 3). -/
def Obligations.StepKeepsInv : Prop :=
  ∀ s t : State, s.Inv → step s = .next t → t.Inv

/-- Every state that a machine of a legal configuration reaches by any operations in any order satisfies
the invariant (10_state.md R45, 00_scope.md R10, R18). The invariant's canonical memory is the model's own
choice (log 15), and so are the free order of the operations (log 17) and the configuration as a field of the
state (log 3). -/
def Obligations.ReachableStatesMeetInv : Prop := ∀ s : State, Reachable s → s.Inv

/-- No operation changes the quirks mode (10_state.md R32) or the configuration, which is fixed for a machine
(00_scope.md R10) and stands in the state by the model's choice (log 3). -/
def Obligations.ModeIsImmutable : Prop :=
  ∀ (op : Op) (s : State), (applyOp op s).quirks = s.quirks ∧ (applyOp op s).cfg = s.cfg

/-- No instruction changes a timer but `FX15` and `FX18`, so none counts one down (10_state.md R29,
60_exceptions.md R219). -/
def Obligations.OnlyTimerInstructionsWriteTimers : Prop :=
  ∀ (i : Instr) (s t : State), exec i s = .next t →
    (t.dt = s.dt ∨ ∃ x, i = .ldDtVx x) ∧ (t.st = s.st ∨ ∃ x, i = .ldStVx x)

/-- No instruction reads `ST` back: whatever value it holds, every instruction does the same to all the
rest, and `FX18` overwrites it (44_keys_timers.md R196, its last corner case). -/
def Obligations.SoundTimerIsWriteOnly : Prop :=
  ∀ (s : State) (w : Byte),
    (∀ (i : Instr) (t : State), (∀ x, i ≠ .ldStVx x) → exec i s = .next t →
      exec i { s with st := w } = .next { t with st := w }) ∧
    (∀ x, exec (.ldStVx x) { s with st := w } = exec (.ldStVx x) s)

/-- No instruction changes a pixel or `DRAW` but `00E0` and `DXYN`, and these only ever set `DRAW`
(10_state.md R30, R33). -/
def Obligations.OnlyDrawInstructionsTouchTheDisplay : Prop :=
  ∀ (i : Instr) (s t : State), exec i s = .next t →
    (t.fb = s.fb ∧ t.draw = s.draw) ∨
    ((i = .cls ∨ ∃ x y n, i = .drw x y n) ∧ t.draw = true)

/-- No instruction changes a byte of memory but `FX33` in `I .. I+2` and `FX55` in `I .. I+X`
(20_memory.md R53, R56). -/
def Obligations.OnlyTransfersWriteMemory : Prop :=
  ∀ (i : Instr) (s t : State) (a : Nat), exec i s = .next t → t.readByte a ≠ s.readByte a →
    (∃ x, i = .ldBVx x ∧ s.i.toNat ≤ a ∧ a < s.i.toNat + 3) ∨
    (∃ x : Reg, i = .ldMemVx x ∧ s.i.toNat ≤ a ∧ a < s.i.toNat + (x.val + 1))

/-- `VF` changes only as the flag of the instructions of 10_state.md R22, or as the register that an
instruction's encoding names (the last two lines). -/
def Obligations.OnlyListedInstructionsWriteVF : Prop :=
  ∀ (i : Instr) (s t : State), exec i s = .next t → t.readV VF ≠ s.readV VF →
    (s.quirks = .chip8 ∧ ∃ x y, i = .or x y ∨ i = .and x y ∨ i = .xor x y) ∨
    (∃ x y, i = .addReg x y ∨ i = .sub x y ∨ i = .subn x y ∨ i = .shr x y ∨ i = .shl x y) ∨
    (∃ x y n, i = .drw x y n) ∨
    (∃ y, i = .ldReg VF y ∨ i = .or VF y ∨ i = .and VF y ∨ i = .xor VF y) ∨
    (∃ nn, i = .ldImm VF nn ∨ i = .addImm VF nn ∨ i = .rnd VF nn) ∨
    i = .ldVxDt VF ∨ i = .ldVxK VF ∨ i = .ldVxMem VF

/-- The call stack is reached by `2NNN` and `00EE` alone: no other instruction changes it, and whatever it
holds, every other instruction does the same to all the rest, so none reads it (10_state.md R26). The keypad
latches are changed by `FX0A` alone (10_state.md R31, the spec's own decision D15). -/
def Obligations.OnlyTheirInstructionsReachStackAndKeys : Prop :=
  (∀ (i : Instr) (s t : State), exec i s = .next t →
    ((t.sp = s.sp ∧ t.stack = s.stack) ∨ i = .ret ∨ ∃ nnn, i = .call nnn) ∧
    ((∀ k, t.readKey k = s.readKey k) ∨ ∃ x, i = .ldVxK x)) ∧
  (∀ (i : Instr) (s t : State) (l : List Word) (n : Nat), i ≠ .ret → (∀ nnn, i ≠ .call nnn) →
    exec i s = .next t → exec i { s with stack := l, sp := n } = .next { t with stack := l, sp := n })

/-- Without a fault, only the jumps, the call, the return, the skips and the key wait move `PC` from the
next instruction (40_flow.md R109, 44_keys_timers.md R194). -/
def Obligations.OnlyControlInstructionsRedirectPc : Prop :=
  ∀ (i : Instr) (s t : State), exec i s = .next t → t.fault = none → t.pc ≠ s.pc →
    i = .ret ∨ (∃ nnn, i = .jp nnn ∨ i = .call nnn ∨ i = .jpV0 nnn) ∨
    (∃ x nn, i = .seImm x nn ∨ i = .sneImm x nn) ∨ (∃ x y, i = .seReg x y ∨ i = .sneReg x y) ∨
    (∃ x, i = .skp x ∨ i = .sknp x ∨ i = .ldVxK x)
end

