-- ==== Sys2Proof/Laws/Decode.lean ====
section
/-! SUPPORT. The fields of a packed word are the operands it was packed from, and a word is packed again
from its fields (30_encoding.md R70, R71). -/

namespace Sys2Proof

/-! ## Fields of a packed word -/

@[simp] theorem fieldF_packNNN (f : Nibble) (n : Addr) : fieldF (packNNN f n) = f := by
  refine BitVec.eq_of_getLsbD_eq fun i hi => ?_
  simp only [fieldF, packNNN, BitVec.getLsbD_append, BitVec.getLsbD_extractLsb']
  simp [hi]

@[simp] theorem fieldNNN_packNNN (f : Nibble) (n : Addr) : fieldNNN (packNNN f n) = n := by
  refine BitVec.eq_of_getLsbD_eq fun i hi => ?_
  simp only [fieldNNN, packNNN, BitVec.getLsbD_extractLsb', BitVec.getLsbD_append]
  simp [hi]

@[simp] theorem fieldF_packXNN (f : Nibble) (x : Reg) (nn : Byte) : fieldF (packXNN f x nn) = f := by
  refine BitVec.eq_of_getLsbD_eq fun i hi => ?_
  simp only [fieldF, packXNN, BitVec.getLsbD_extractLsb', BitVec.getLsbD_append]
  simp [hi]

@[simp] theorem fieldX_packXNN (f : Nibble) (x : Reg) (nn : Byte) : fieldX (packXNN f x nn) = x := by
  have : (packXNN f x nn).extractLsb' 8 4 = regField x := by
    refine BitVec.eq_of_getLsbD_eq fun i hi => ?_
    have : 8 + i < 12 := by omega
    simp only [packXNN, BitVec.getLsbD_extractLsb', BitVec.getLsbD_append]
    simp [hi, this]
  simp [fieldX, this, regField]

@[simp] theorem fieldNN_packXNN (f : Nibble) (x : Reg) (nn : Byte) : fieldNN (packXNN f x nn) = nn := by
  refine BitVec.eq_of_getLsbD_eq fun i hi => ?_
  have : i < 12 := by omega
  simp only [fieldNN, packXNN, BitVec.getLsbD_extractLsb', BitVec.getLsbD_append]
  simp [hi, this]

@[simp] theorem fieldF_packXYN (f : Nibble) (x y : Reg) (n : Nibble) : fieldF (packXYN f x y n) = f := by
  refine BitVec.eq_of_getLsbD_eq fun i hi => ?_
  simp only [fieldF, packXYN, BitVec.getLsbD_extractLsb', BitVec.getLsbD_append]
  simp [hi]

@[simp] theorem fieldX_packXYN (f : Nibble) (x y : Reg) (n : Nibble) : fieldX (packXYN f x y n) = x := by
  have : (packXYN f x y n).extractLsb' 8 4 = regField x := by
    refine BitVec.eq_of_getLsbD_eq fun i hi => ?_
    have : 8 + i < 12 := by omega
    simp only [packXYN, BitVec.getLsbD_extractLsb', BitVec.getLsbD_append]
    simp [hi, this]
  simp [fieldX, this, regField]

@[simp] theorem fieldY_packXYN (f : Nibble) (x y : Reg) (n : Nibble) : fieldY (packXYN f x y n) = y := by
  have : (packXYN f x y n).extractLsb' 4 4 = regField y := by
    refine BitVec.eq_of_getLsbD_eq fun i hi => ?_
    have h1 : 4 + i < 12 := by omega
    have h2 : 4 + i < 8 := by omega
    simp only [packXYN, BitVec.getLsbD_extractLsb', BitVec.getLsbD_append]
    simp [hi, h1, h2]
  simp [fieldY, this, regField]

@[simp] theorem fieldN_packXYN (f : Nibble) (x y : Reg) (n : Nibble) : fieldN (packXYN f x y n) = n := by
  refine BitVec.eq_of_getLsbD_eq fun i hi => ?_
  have h1 : i < 12 := by omega
  have h2 : i < 8 := by omega
  simp only [fieldN, packXYN, BitVec.getLsbD_extractLsb', BitVec.getLsbD_append]
  simp [hi, h1, h2]

/-! ## A word from its fields -/

theorem packNNN_fields (op : Word) : packNNN (fieldF op) (fieldNNN op) = op := by
  refine BitVec.eq_of_getLsbD_eq fun i hi => ?_
  simp only [packNNN, fieldF, fieldNNN, BitVec.getLsbD_append, BitVec.getLsbD_extractLsb']
  split
  · simp [*]
  · have : i - 12 < 4 := by omega
    have h2 : 12 + (i - 12) = i := by omega
    simp [this, h2]

theorem packXNN_fields (op : Word) : packXNN (fieldF op) (fieldX op) (fieldNN op) = op := by
  refine BitVec.eq_of_getLsbD_eq fun i hi => ?_
  have hx : regField (fieldX op) = op.extractLsb' 8 4 := rfl
  simp only [packXNN, hx, fieldF, fieldNN, BitVec.getLsbD_append, BitVec.getLsbD_extractLsb']
  split
  · split
    · simp [*]
    · have : i - 8 < 4 := by omega
      have h2 : 8 + (i - 8) = i := by omega
      simp [this, h2]
  · have : i - 12 < 4 := by omega
    have h2 : 12 + (i - 12) = i := by omega
    simp [this, h2]

theorem packXYN_fields (op : Word) : packXYN (fieldF op) (fieldX op) (fieldY op) (fieldN op) = op := by
  refine BitVec.eq_of_getLsbD_eq fun i hi => ?_
  have hx : regField (fieldX op) = op.extractLsb' 8 4 := rfl
  have hy : regField (fieldY op) = op.extractLsb' 4 4 := rfl
  simp only [packXYN, hx, hy, fieldF, fieldN, BitVec.getLsbD_append, BitVec.getLsbD_extractLsb']
  split
  · split
    · split
      · simp [*]
      · have : i - 4 < 4 := by omega
        have h2 : 4 + (i - 4) = i := by omega
        simp [this, h2]
    · have : i - 8 < 4 := by omega
      have h2 : 8 + (i - 8) = i := by omega
      simp [this, h2]
  · have : i - 12 < 4 := by omega
    have h2 : 12 + (i - 12) = i := by omega
    simp [this, h2]

end Sys2Proof
end

