-- ==== Sys2Proof/Laws/State.lean ====
section
/-! SUPPORT. One lemma per field per update of State, each true by rfl, so that no proof unfolds a
record update. -/

namespace Sys2Proof.Machine

/-! ## `writeV` -/

@[simp] theorem writeV_cfg (s : State) (x : Reg) (w : Byte) : (s.writeV x w).cfg = s.cfg := rfl
@[simp] theorem writeV_mem (s : State) (x : Reg) (w : Byte) : (s.writeV x w).mem = s.mem := rfl
@[simp] theorem writeV_v (s : State) (x : Reg) (w : Byte) : (s.writeV x w).v = s.v.set x.val w := rfl
@[simp] theorem writeV_i (s : State) (x : Reg) (w : Byte) : (s.writeV x w).i = s.i := rfl
@[simp] theorem writeV_pc (s : State) (x : Reg) (w : Byte) : (s.writeV x w).pc = s.pc := rfl
@[simp] theorem writeV_sp (s : State) (x : Reg) (w : Byte) : (s.writeV x w).sp = s.sp := rfl
@[simp] theorem writeV_stack (s : State) (x : Reg) (w : Byte) : (s.writeV x w).stack = s.stack := rfl
@[simp] theorem writeV_dt (s : State) (x : Reg) (w : Byte) : (s.writeV x w).dt = s.dt := rfl
@[simp] theorem writeV_st (s : State) (x : Reg) (w : Byte) : (s.writeV x w).st = s.st := rfl
@[simp] theorem writeV_fb (s : State) (x : Reg) (w : Byte) : (s.writeV x w).fb = s.fb := rfl
@[simp] theorem writeV_key (s : State) (x : Reg) (w : Byte) : (s.writeV x w).key = s.key := rfl
@[simp] theorem writeV_quirks (s : State) (x : Reg) (w : Byte) : (s.writeV x w).quirks = s.quirks := rfl
@[simp] theorem writeV_draw (s : State) (x : Reg) (w : Byte) : (s.writeV x w).draw = s.draw := rfl
@[simp] theorem writeV_fault (s : State) (x : Reg) (w : Byte) : (s.writeV x w).fault = s.fault := rfl
@[simp] theorem writeV_draws (s : State) (x : Reg) (w : Byte) : (s.writeV x w).draws = s.draws := rfl
@[simp] theorem readByte_writeV (s : State) (x : Reg) (w : Byte) (addr : Nat) : (s.writeV x w).readByte addr = s.readByte addr := rfl
@[simp] theorem readKey_writeV (s : State) (x : Reg) (w : Byte) (j : Key) : (s.writeV x w).readKey j = s.readKey j := rfl
@[simp] theorem pixel_writeV (s : State) (x : Reg) (w : Byte) (py px : Nat) : (s.writeV x w).pixel py px = s.pixel py px := rfl
@[simp] theorem stackEntry_writeV (s : State) (x : Reg) (w : Byte) (j : Nat) : (s.writeV x w).stackEntry j = s.stackEntry j := rfl

/-! ## `setI` -/

@[simp] theorem setI_cfg (s : State) (w : Word) : (s.setI w).cfg = s.cfg := rfl
@[simp] theorem setI_mem (s : State) (w : Word) : (s.setI w).mem = s.mem := rfl
@[simp] theorem setI_v (s : State) (w : Word) : (s.setI w).v = s.v := rfl
@[simp] theorem setI_i (s : State) (w : Word) : (s.setI w).i = w := rfl
@[simp] theorem setI_pc (s : State) (w : Word) : (s.setI w).pc = s.pc := rfl
@[simp] theorem setI_sp (s : State) (w : Word) : (s.setI w).sp = s.sp := rfl
@[simp] theorem setI_stack (s : State) (w : Word) : (s.setI w).stack = s.stack := rfl
@[simp] theorem setI_dt (s : State) (w : Word) : (s.setI w).dt = s.dt := rfl
@[simp] theorem setI_st (s : State) (w : Word) : (s.setI w).st = s.st := rfl
@[simp] theorem setI_fb (s : State) (w : Word) : (s.setI w).fb = s.fb := rfl
@[simp] theorem setI_key (s : State) (w : Word) : (s.setI w).key = s.key := rfl
@[simp] theorem setI_quirks (s : State) (w : Word) : (s.setI w).quirks = s.quirks := rfl
@[simp] theorem setI_draw (s : State) (w : Word) : (s.setI w).draw = s.draw := rfl
@[simp] theorem setI_fault (s : State) (w : Word) : (s.setI w).fault = s.fault := rfl
@[simp] theorem setI_draws (s : State) (w : Word) : (s.setI w).draws = s.draws := rfl
@[simp] theorem readV_setI (s : State) (w : Word) (r : Reg) : (s.setI w).readV r = s.readV r := rfl
@[simp] theorem readByte_setI (s : State) (w : Word) (addr : Nat) : (s.setI w).readByte addr = s.readByte addr := rfl
@[simp] theorem readKey_setI (s : State) (w : Word) (j : Key) : (s.setI w).readKey j = s.readKey j := rfl
@[simp] theorem pixel_setI (s : State) (w : Word) (py px : Nat) : (s.setI w).pixel py px = s.pixel py px := rfl
@[simp] theorem stackEntry_setI (s : State) (w : Word) (j : Nat) : (s.setI w).stackEntry j = s.stackEntry j := rfl

/-! ## `setPc` -/

@[simp] theorem setPc_cfg (s : State) (w : Word) : (s.setPc w).cfg = s.cfg := rfl
@[simp] theorem setPc_mem (s : State) (w : Word) : (s.setPc w).mem = s.mem := rfl
@[simp] theorem setPc_v (s : State) (w : Word) : (s.setPc w).v = s.v := rfl
@[simp] theorem setPc_i (s : State) (w : Word) : (s.setPc w).i = s.i := rfl
@[simp] theorem setPc_pc (s : State) (w : Word) : (s.setPc w).pc = w := rfl
@[simp] theorem setPc_sp (s : State) (w : Word) : (s.setPc w).sp = s.sp := rfl
@[simp] theorem setPc_stack (s : State) (w : Word) : (s.setPc w).stack = s.stack := rfl
@[simp] theorem setPc_dt (s : State) (w : Word) : (s.setPc w).dt = s.dt := rfl
@[simp] theorem setPc_st (s : State) (w : Word) : (s.setPc w).st = s.st := rfl
@[simp] theorem setPc_fb (s : State) (w : Word) : (s.setPc w).fb = s.fb := rfl
@[simp] theorem setPc_key (s : State) (w : Word) : (s.setPc w).key = s.key := rfl
@[simp] theorem setPc_quirks (s : State) (w : Word) : (s.setPc w).quirks = s.quirks := rfl
@[simp] theorem setPc_draw (s : State) (w : Word) : (s.setPc w).draw = s.draw := rfl
@[simp] theorem setPc_fault (s : State) (w : Word) : (s.setPc w).fault = s.fault := rfl
@[simp] theorem setPc_draws (s : State) (w : Word) : (s.setPc w).draws = s.draws := rfl
@[simp] theorem readV_setPc (s : State) (w : Word) (r : Reg) : (s.setPc w).readV r = s.readV r := rfl
@[simp] theorem readByte_setPc (s : State) (w : Word) (addr : Nat) : (s.setPc w).readByte addr = s.readByte addr := rfl
@[simp] theorem readKey_setPc (s : State) (w : Word) (j : Key) : (s.setPc w).readKey j = s.readKey j := rfl
@[simp] theorem pixel_setPc (s : State) (w : Word) (py px : Nat) : (s.setPc w).pixel py px = s.pixel py px := rfl
@[simp] theorem stackEntry_setPc (s : State) (w : Word) (j : Nat) : (s.setPc w).stackEntry j = s.stackEntry j := rfl

/-! ## `setDt` -/

@[simp] theorem setDt_cfg (s : State) (w : Byte) : (s.setDt w).cfg = s.cfg := rfl
@[simp] theorem setDt_mem (s : State) (w : Byte) : (s.setDt w).mem = s.mem := rfl
@[simp] theorem setDt_v (s : State) (w : Byte) : (s.setDt w).v = s.v := rfl
@[simp] theorem setDt_i (s : State) (w : Byte) : (s.setDt w).i = s.i := rfl
@[simp] theorem setDt_pc (s : State) (w : Byte) : (s.setDt w).pc = s.pc := rfl
@[simp] theorem setDt_sp (s : State) (w : Byte) : (s.setDt w).sp = s.sp := rfl
@[simp] theorem setDt_stack (s : State) (w : Byte) : (s.setDt w).stack = s.stack := rfl
@[simp] theorem setDt_dt (s : State) (w : Byte) : (s.setDt w).dt = w := rfl
@[simp] theorem setDt_st (s : State) (w : Byte) : (s.setDt w).st = s.st := rfl
@[simp] theorem setDt_fb (s : State) (w : Byte) : (s.setDt w).fb = s.fb := rfl
@[simp] theorem setDt_key (s : State) (w : Byte) : (s.setDt w).key = s.key := rfl
@[simp] theorem setDt_quirks (s : State) (w : Byte) : (s.setDt w).quirks = s.quirks := rfl
@[simp] theorem setDt_draw (s : State) (w : Byte) : (s.setDt w).draw = s.draw := rfl
@[simp] theorem setDt_fault (s : State) (w : Byte) : (s.setDt w).fault = s.fault := rfl
@[simp] theorem setDt_draws (s : State) (w : Byte) : (s.setDt w).draws = s.draws := rfl
@[simp] theorem readV_setDt (s : State) (w : Byte) (r : Reg) : (s.setDt w).readV r = s.readV r := rfl
@[simp] theorem readByte_setDt (s : State) (w : Byte) (addr : Nat) : (s.setDt w).readByte addr = s.readByte addr := rfl
@[simp] theorem readKey_setDt (s : State) (w : Byte) (j : Key) : (s.setDt w).readKey j = s.readKey j := rfl
@[simp] theorem pixel_setDt (s : State) (w : Byte) (py px : Nat) : (s.setDt w).pixel py px = s.pixel py px := rfl
@[simp] theorem stackEntry_setDt (s : State) (w : Byte) (j : Nat) : (s.setDt w).stackEntry j = s.stackEntry j := rfl

/-! ## `setSt` -/

@[simp] theorem setSt_cfg (s : State) (w : Byte) : (s.setSt w).cfg = s.cfg := rfl
@[simp] theorem setSt_mem (s : State) (w : Byte) : (s.setSt w).mem = s.mem := rfl
@[simp] theorem setSt_v (s : State) (w : Byte) : (s.setSt w).v = s.v := rfl
@[simp] theorem setSt_i (s : State) (w : Byte) : (s.setSt w).i = s.i := rfl
@[simp] theorem setSt_pc (s : State) (w : Byte) : (s.setSt w).pc = s.pc := rfl
@[simp] theorem setSt_sp (s : State) (w : Byte) : (s.setSt w).sp = s.sp := rfl
@[simp] theorem setSt_stack (s : State) (w : Byte) : (s.setSt w).stack = s.stack := rfl
@[simp] theorem setSt_dt (s : State) (w : Byte) : (s.setSt w).dt = s.dt := rfl
@[simp] theorem setSt_st (s : State) (w : Byte) : (s.setSt w).st = w := rfl
@[simp] theorem setSt_fb (s : State) (w : Byte) : (s.setSt w).fb = s.fb := rfl
@[simp] theorem setSt_key (s : State) (w : Byte) : (s.setSt w).key = s.key := rfl
@[simp] theorem setSt_quirks (s : State) (w : Byte) : (s.setSt w).quirks = s.quirks := rfl
@[simp] theorem setSt_draw (s : State) (w : Byte) : (s.setSt w).draw = s.draw := rfl
@[simp] theorem setSt_fault (s : State) (w : Byte) : (s.setSt w).fault = s.fault := rfl
@[simp] theorem setSt_draws (s : State) (w : Byte) : (s.setSt w).draws = s.draws := rfl
@[simp] theorem readV_setSt (s : State) (w : Byte) (r : Reg) : (s.setSt w).readV r = s.readV r := rfl
@[simp] theorem readByte_setSt (s : State) (w : Byte) (addr : Nat) : (s.setSt w).readByte addr = s.readByte addr := rfl
@[simp] theorem readKey_setSt (s : State) (w : Byte) (j : Key) : (s.setSt w).readKey j = s.readKey j := rfl
@[simp] theorem pixel_setSt (s : State) (w : Byte) (py px : Nat) : (s.setSt w).pixel py px = s.pixel py px := rfl
@[simp] theorem stackEntry_setSt (s : State) (w : Byte) (j : Nat) : (s.setSt w).stackEntry j = s.stackEntry j := rfl

/-! ## `setFb` -/

@[simp] theorem setFb_cfg (s : State) (f : Framebuffer) : (s.setFb f).cfg = s.cfg := rfl
@[simp] theorem setFb_mem (s : State) (f : Framebuffer) : (s.setFb f).mem = s.mem := rfl
@[simp] theorem setFb_v (s : State) (f : Framebuffer) : (s.setFb f).v = s.v := rfl
@[simp] theorem setFb_i (s : State) (f : Framebuffer) : (s.setFb f).i = s.i := rfl
@[simp] theorem setFb_pc (s : State) (f : Framebuffer) : (s.setFb f).pc = s.pc := rfl
@[simp] theorem setFb_sp (s : State) (f : Framebuffer) : (s.setFb f).sp = s.sp := rfl
@[simp] theorem setFb_stack (s : State) (f : Framebuffer) : (s.setFb f).stack = s.stack := rfl
@[simp] theorem setFb_dt (s : State) (f : Framebuffer) : (s.setFb f).dt = s.dt := rfl
@[simp] theorem setFb_st (s : State) (f : Framebuffer) : (s.setFb f).st = s.st := rfl
@[simp] theorem setFb_fb (s : State) (f : Framebuffer) : (s.setFb f).fb = f := rfl
@[simp] theorem setFb_key (s : State) (f : Framebuffer) : (s.setFb f).key = s.key := rfl
@[simp] theorem setFb_quirks (s : State) (f : Framebuffer) : (s.setFb f).quirks = s.quirks := rfl
@[simp] theorem setFb_draw (s : State) (f : Framebuffer) : (s.setFb f).draw = s.draw := rfl
@[simp] theorem setFb_fault (s : State) (f : Framebuffer) : (s.setFb f).fault = s.fault := rfl
@[simp] theorem setFb_draws (s : State) (f : Framebuffer) : (s.setFb f).draws = s.draws := rfl
@[simp] theorem readV_setFb (s : State) (f : Framebuffer) (r : Reg) : (s.setFb f).readV r = s.readV r := rfl
@[simp] theorem readByte_setFb (s : State) (f : Framebuffer) (addr : Nat) : (s.setFb f).readByte addr = s.readByte addr := rfl
@[simp] theorem readKey_setFb (s : State) (f : Framebuffer) (j : Key) : (s.setFb f).readKey j = s.readKey j := rfl
@[simp] theorem stackEntry_setFb (s : State) (f : Framebuffer) (j : Nat) : (s.setFb f).stackEntry j = s.stackEntry j := rfl

/-! ## `setDraw` -/

@[simp] theorem setDraw_cfg (s : State) (b : Bool) : (s.setDraw b).cfg = s.cfg := rfl
@[simp] theorem setDraw_mem (s : State) (b : Bool) : (s.setDraw b).mem = s.mem := rfl
@[simp] theorem setDraw_v (s : State) (b : Bool) : (s.setDraw b).v = s.v := rfl
@[simp] theorem setDraw_i (s : State) (b : Bool) : (s.setDraw b).i = s.i := rfl
@[simp] theorem setDraw_pc (s : State) (b : Bool) : (s.setDraw b).pc = s.pc := rfl
@[simp] theorem setDraw_sp (s : State) (b : Bool) : (s.setDraw b).sp = s.sp := rfl
@[simp] theorem setDraw_stack (s : State) (b : Bool) : (s.setDraw b).stack = s.stack := rfl
@[simp] theorem setDraw_dt (s : State) (b : Bool) : (s.setDraw b).dt = s.dt := rfl
@[simp] theorem setDraw_st (s : State) (b : Bool) : (s.setDraw b).st = s.st := rfl
@[simp] theorem setDraw_fb (s : State) (b : Bool) : (s.setDraw b).fb = s.fb := rfl
@[simp] theorem setDraw_key (s : State) (b : Bool) : (s.setDraw b).key = s.key := rfl
@[simp] theorem setDraw_quirks (s : State) (b : Bool) : (s.setDraw b).quirks = s.quirks := rfl
@[simp] theorem setDraw_draw (s : State) (b : Bool) : (s.setDraw b).draw = b := rfl
@[simp] theorem setDraw_fault (s : State) (b : Bool) : (s.setDraw b).fault = s.fault := rfl
@[simp] theorem setDraw_draws (s : State) (b : Bool) : (s.setDraw b).draws = s.draws := rfl
@[simp] theorem readV_setDraw (s : State) (b : Bool) (r : Reg) : (s.setDraw b).readV r = s.readV r := rfl
@[simp] theorem readByte_setDraw (s : State) (b : Bool) (addr : Nat) : (s.setDraw b).readByte addr = s.readByte addr := rfl
@[simp] theorem readKey_setDraw (s : State) (b : Bool) (j : Key) : (s.setDraw b).readKey j = s.readKey j := rfl
@[simp] theorem pixel_setDraw (s : State) (b : Bool) (py px : Nat) : (s.setDraw b).pixel py px = s.pixel py px := rfl
@[simp] theorem stackEntry_setDraw (s : State) (b : Bool) (j : Nat) : (s.setDraw b).stackEntry j = s.stackEntry j := rfl

/-! ## `setKey` -/

@[simp] theorem setKey_cfg (s : State) (k : Key) (b : Bool) : (s.setKey k b).cfg = s.cfg := rfl
@[simp] theorem setKey_mem (s : State) (k : Key) (b : Bool) : (s.setKey k b).mem = s.mem := rfl
@[simp] theorem setKey_v (s : State) (k : Key) (b : Bool) : (s.setKey k b).v = s.v := rfl
@[simp] theorem setKey_i (s : State) (k : Key) (b : Bool) : (s.setKey k b).i = s.i := rfl
@[simp] theorem setKey_pc (s : State) (k : Key) (b : Bool) : (s.setKey k b).pc = s.pc := rfl
@[simp] theorem setKey_sp (s : State) (k : Key) (b : Bool) : (s.setKey k b).sp = s.sp := rfl
@[simp] theorem setKey_stack (s : State) (k : Key) (b : Bool) : (s.setKey k b).stack = s.stack := rfl
@[simp] theorem setKey_dt (s : State) (k : Key) (b : Bool) : (s.setKey k b).dt = s.dt := rfl
@[simp] theorem setKey_st (s : State) (k : Key) (b : Bool) : (s.setKey k b).st = s.st := rfl
@[simp] theorem setKey_fb (s : State) (k : Key) (b : Bool) : (s.setKey k b).fb = s.fb := rfl
@[simp] theorem setKey_key (s : State) (k : Key) (b : Bool) : (s.setKey k b).key = s.key.set k.val b := rfl
@[simp] theorem setKey_quirks (s : State) (k : Key) (b : Bool) : (s.setKey k b).quirks = s.quirks := rfl
@[simp] theorem setKey_draw (s : State) (k : Key) (b : Bool) : (s.setKey k b).draw = s.draw := rfl
@[simp] theorem setKey_fault (s : State) (k : Key) (b : Bool) : (s.setKey k b).fault = s.fault := rfl
@[simp] theorem setKey_draws (s : State) (k : Key) (b : Bool) : (s.setKey k b).draws = s.draws := rfl
@[simp] theorem readV_setKey (s : State) (k : Key) (b : Bool) (r : Reg) : (s.setKey k b).readV r = s.readV r := rfl
@[simp] theorem readByte_setKey (s : State) (k : Key) (b : Bool) (addr : Nat) : (s.setKey k b).readByte addr = s.readByte addr := rfl
@[simp] theorem pixel_setKey (s : State) (k : Key) (b : Bool) (py px : Nat) : (s.setKey k b).pixel py px = s.pixel py px := rfl
@[simp] theorem stackEntry_setKey (s : State) (k : Key) (b : Bool) (j : Nat) : (s.setKey k b).stackEntry j = s.stackEntry j := rfl

/-! ## `bumpDraws` -/

@[simp] theorem bumpDraws_cfg (s : State) : (s.bumpDraws).cfg = s.cfg := rfl
@[simp] theorem bumpDraws_mem (s : State) : (s.bumpDraws).mem = s.mem := rfl
@[simp] theorem bumpDraws_v (s : State) : (s.bumpDraws).v = s.v := rfl
@[simp] theorem bumpDraws_i (s : State) : (s.bumpDraws).i = s.i := rfl
@[simp] theorem bumpDraws_pc (s : State) : (s.bumpDraws).pc = s.pc := rfl
@[simp] theorem bumpDraws_sp (s : State) : (s.bumpDraws).sp = s.sp := rfl
@[simp] theorem bumpDraws_stack (s : State) : (s.bumpDraws).stack = s.stack := rfl
@[simp] theorem bumpDraws_dt (s : State) : (s.bumpDraws).dt = s.dt := rfl
@[simp] theorem bumpDraws_st (s : State) : (s.bumpDraws).st = s.st := rfl
@[simp] theorem bumpDraws_fb (s : State) : (s.bumpDraws).fb = s.fb := rfl
@[simp] theorem bumpDraws_key (s : State) : (s.bumpDraws).key = s.key := rfl
@[simp] theorem bumpDraws_quirks (s : State) : (s.bumpDraws).quirks = s.quirks := rfl
@[simp] theorem bumpDraws_draw (s : State) : (s.bumpDraws).draw = s.draw := rfl
@[simp] theorem bumpDraws_fault (s : State) : (s.bumpDraws).fault = s.fault := rfl
@[simp] theorem bumpDraws_draws (s : State) : (s.bumpDraws).draws = s.draws + 1 := rfl
@[simp] theorem readV_bumpDraws (s : State) (r : Reg) : (s.bumpDraws).readV r = s.readV r := rfl
@[simp] theorem readByte_bumpDraws (s : State) (addr : Nat) : (s.bumpDraws).readByte addr = s.readByte addr := rfl
@[simp] theorem readKey_bumpDraws (s : State) (j : Key) : (s.bumpDraws).readKey j = s.readKey j := rfl
@[simp] theorem pixel_bumpDraws (s : State) (py px : Nat) : (s.bumpDraws).pixel py px = s.pixel py px := rfl
@[simp] theorem stackEntry_bumpDraws (s : State) (j : Nat) : (s.bumpDraws).stackEntry j = s.stackEntry j := rfl

/-! ## `writeByte` -/

@[simp] theorem writeByte_cfg (s : State) (a : Nat) (w : Byte) : (s.writeByte a w).cfg = s.cfg := rfl
@[simp] theorem writeByte_mem (s : State) (a : Nat) (w : Byte) : (s.writeByte a w).mem = Memory.write s.cfg s.mem a w := rfl
@[simp] theorem writeByte_v (s : State) (a : Nat) (w : Byte) : (s.writeByte a w).v = s.v := rfl
@[simp] theorem writeByte_i (s : State) (a : Nat) (w : Byte) : (s.writeByte a w).i = s.i := rfl
@[simp] theorem writeByte_pc (s : State) (a : Nat) (w : Byte) : (s.writeByte a w).pc = s.pc := rfl
@[simp] theorem writeByte_sp (s : State) (a : Nat) (w : Byte) : (s.writeByte a w).sp = s.sp := rfl
@[simp] theorem writeByte_stack (s : State) (a : Nat) (w : Byte) : (s.writeByte a w).stack = s.stack := rfl
@[simp] theorem writeByte_dt (s : State) (a : Nat) (w : Byte) : (s.writeByte a w).dt = s.dt := rfl
@[simp] theorem writeByte_st (s : State) (a : Nat) (w : Byte) : (s.writeByte a w).st = s.st := rfl
@[simp] theorem writeByte_fb (s : State) (a : Nat) (w : Byte) : (s.writeByte a w).fb = s.fb := rfl
@[simp] theorem writeByte_key (s : State) (a : Nat) (w : Byte) : (s.writeByte a w).key = s.key := rfl
@[simp] theorem writeByte_quirks (s : State) (a : Nat) (w : Byte) : (s.writeByte a w).quirks = s.quirks := rfl
@[simp] theorem writeByte_draw (s : State) (a : Nat) (w : Byte) : (s.writeByte a w).draw = s.draw := rfl
@[simp] theorem writeByte_fault (s : State) (a : Nat) (w : Byte) : (s.writeByte a w).fault = s.fault := rfl
@[simp] theorem writeByte_draws (s : State) (a : Nat) (w : Byte) : (s.writeByte a w).draws = s.draws := rfl
@[simp] theorem readV_writeByte (s : State) (a : Nat) (w : Byte) (r : Reg) : (s.writeByte a w).readV r = s.readV r := rfl
@[simp] theorem readKey_writeByte (s : State) (a : Nat) (w : Byte) (j : Key) : (s.writeByte a w).readKey j = s.readKey j := rfl
@[simp] theorem pixel_writeByte (s : State) (a : Nat) (w : Byte) (py px : Nat) : (s.writeByte a w).pixel py px = s.pixel py px := rfl
@[simp] theorem stackEntry_writeByte (s : State) (a : Nat) (w : Byte) (j : Nat) : (s.writeByte a w).stackEntry j = s.stackEntry j := rfl

/-! ## `latchFault` -/

@[simp] theorem latchFault_cfg (s : State) (kind : FaultKind) (pc0 : Word) : (s.latchFault kind pc0).cfg = s.cfg := rfl
@[simp] theorem latchFault_mem (s : State) (kind : FaultKind) (pc0 : Word) : (s.latchFault kind pc0).mem = s.mem := rfl
@[simp] theorem latchFault_v (s : State) (kind : FaultKind) (pc0 : Word) : (s.latchFault kind pc0).v = s.v := rfl
@[simp] theorem latchFault_i (s : State) (kind : FaultKind) (pc0 : Word) : (s.latchFault kind pc0).i = s.i := rfl
@[simp] theorem latchFault_pc (s : State) (kind : FaultKind) (pc0 : Word) : (s.latchFault kind pc0).pc = pc0 := rfl
@[simp] theorem latchFault_sp (s : State) (kind : FaultKind) (pc0 : Word) : (s.latchFault kind pc0).sp = s.sp := rfl
@[simp] theorem latchFault_stack (s : State) (kind : FaultKind) (pc0 : Word) : (s.latchFault kind pc0).stack = s.stack := rfl
@[simp] theorem latchFault_dt (s : State) (kind : FaultKind) (pc0 : Word) : (s.latchFault kind pc0).dt = s.dt := rfl
@[simp] theorem latchFault_st (s : State) (kind : FaultKind) (pc0 : Word) : (s.latchFault kind pc0).st = s.st := rfl
@[simp] theorem latchFault_fb (s : State) (kind : FaultKind) (pc0 : Word) : (s.latchFault kind pc0).fb = s.fb := rfl
@[simp] theorem latchFault_key (s : State) (kind : FaultKind) (pc0 : Word) : (s.latchFault kind pc0).key = s.key := rfl
@[simp] theorem latchFault_quirks (s : State) (kind : FaultKind) (pc0 : Word) : (s.latchFault kind pc0).quirks = s.quirks := rfl
@[simp] theorem latchFault_draw (s : State) (kind : FaultKind) (pc0 : Word) : (s.latchFault kind pc0).draw = s.draw := rfl
@[simp] theorem latchFault_fault (s : State) (kind : FaultKind) (pc0 : Word) : (s.latchFault kind pc0).fault = some kind := rfl
@[simp] theorem latchFault_draws (s : State) (kind : FaultKind) (pc0 : Word) : (s.latchFault kind pc0).draws = s.draws := rfl
@[simp] theorem readV_latchFault (s : State) (kind : FaultKind) (pc0 : Word) (r : Reg) : (s.latchFault kind pc0).readV r = s.readV r := rfl
@[simp] theorem readByte_latchFault (s : State) (kind : FaultKind) (pc0 : Word) (addr : Nat) : (s.latchFault kind pc0).readByte addr = s.readByte addr := rfl
@[simp] theorem readKey_latchFault (s : State) (kind : FaultKind) (pc0 : Word) (j : Key) : (s.latchFault kind pc0).readKey j = s.readKey j := rfl
@[simp] theorem pixel_latchFault (s : State) (kind : FaultKind) (pc0 : Word) (py px : Nat) : (s.latchFault kind pc0).pixel py px = s.pixel py px := rfl
@[simp] theorem stackEntry_latchFault (s : State) (kind : FaultKind) (pc0 : Word) (j : Nat) : (s.latchFault kind pc0).stackEntry j = s.stackEntry j := rfl

end Sys2Proof.Machine
end

