-- ==== Sys2Proof/Laws/Memory.lean ====
section
/-! SUPPORT. What the memory operations do (20_memory.md R51, R52), and that each keeps the canonical
form. -/

namespace Sys2Proof.Machine

/-! ## Reading -/

theorem Memory.read_unlisted (c : Config) (m : Memory) (a : Nat) (h : ∀ cell ∈ m, cell.1 ≠ a) :
    Memory.read c m a = resetByte c a := by
  induction m with
  | nil => rfl
  | cons p rest ih =>
    have hp : p.1 ≠ a := h p (by simp)
    simp only [Memory.read, if_neg hp]
    exact ih fun cell hc => h cell (by simp [hc])

theorem Memory.read_erase_self (c : Config) (m : Memory) (a : Nat) :
    Memory.read c (m.erase a) a = resetByte c a := by
  refine Memory.read_unlisted c _ a fun cell hc => ?_
  simpa using (List.mem_filter.mp hc).2

theorem Memory.read_erase_other (c : Config) (m : Memory) (a b : Nat) (h : b ≠ a) :
    Memory.read c (m.erase a) b = Memory.read c m b := by
  induction m with
  | nil => rfl
  | cons p rest ih =>
    obtain ⟨q, w⟩ := p
    simp only [Memory.erase] at ih
    by_cases hq : q = a
    · have hb : q ≠ b := by omega
      simp [Memory.erase, Memory.read, hq, ih, Ne.symm h]
    · simp [Memory.erase, Memory.read, hq, ih]

theorem Memory.read_insert (c : Config) (m : Memory) (a b : Nat) (w : Byte) :
    Memory.read c (Memory.insert a w m) b = if a = b then w else Memory.read c m b := by
  induction m with
  | nil => simp [Memory.insert, Memory.read]
  | cons p rest ih =>
    obtain ⟨q, u⟩ := p
    by_cases hq : q < a
    · by_cases hb : q = b
      · have : a ≠ b := by omega
        subst hb
        simp [Memory.insert, Memory.read, hq, this]
      · simp [Memory.insert, Memory.read, hq, hb, ih]
    · simp [Memory.insert, Memory.read, hq]

/-- R51, R52 at the level of the list: a write is seen at its address and nowhere else. -/
theorem Memory.read_write (c : Config) (m : Memory) (a b : Nat) (w : Byte) :
    Memory.read c (m.write c a w) b = if a = b then w else Memory.read c m b := by
  by_cases hw : w = resetByte c a
  · by_cases hb : a = b
    · subst hb; simp [Memory.write, hw, Memory.read_erase_self]
    · simp [Memory.write, hw, hb, Memory.read_erase_other c m a b (Ne.symm hb)]
  · by_cases hb : a = b
    · subst hb; simp [Memory.write, hw, Memory.read_insert]
    · simp [Memory.write, hw, hb, Memory.read_insert, Memory.read_erase_other c m a b (Ne.symm hb)]

/-! ## The canonical form -/

theorem Memory.mem_insert {a : Nat} {w : Byte} {m : Memory} {cell : Host.Cell}
    (h : cell ∈ Memory.insert a w m) : cell = (a, w) ∨ cell ∈ m := by
  induction m with
  | nil => simpa [Memory.insert] using h
  | cons p rest ih =>
    simp only [Memory.insert] at h
    split at h
    · rcases List.mem_cons.mp h with h | h
      · exact .inr (by simp [h])
      · rcases ih h with h | h
        · exact .inl h
        · exact .inr (by simp [h])
    · exact List.mem_cons.mp h

theorem Memory.mem_write {c : Config} {a : Nat} {w : Byte} {m : Memory} {cell : Host.Cell}
    (h : cell ∈ m.write c a w) : cell = (a, w) ∨ cell ∈ m := by
  simp only [Memory.write] at h
  split at h
  · exact .inr (List.mem_filter.mp h).1
  · rcases Memory.mem_insert h with h | h
    · exact .inl h
    · exact .inr (List.mem_filter.mp h).1

theorem Memory.insert_sorted {a : Nat} {w : Byte} {m : Memory}
    (hs : m.Pairwise (fun p q => p.1 < q.1)) (ha : ∀ cell ∈ m, cell.1 ≠ a) :
    (Memory.insert a w m).Pairwise (fun p q => p.1 < q.1) := by
  induction m with
  | nil => simp [Memory.insert]
  | cons p rest ih =>
    obtain ⟨hp, hrest⟩ := List.pairwise_cons.mp hs
    have hpa : p.1 ≠ a := ha p (by simp)
    simp only [Memory.insert]
    split
    · rename_i hlt
      refine List.pairwise_cons.mpr ⟨fun q hq => ?_, ih hrest fun cell hc => ha cell (by simp [hc])⟩
      rcases Memory.mem_insert hq with rfl | hq
      · exact hlt
      · exact hp q hq
    · rename_i hge
      have hap : a < p.1 := by omega
      refine List.pairwise_cons.mpr ⟨fun q hq => ?_, hs⟩
      rcases List.mem_cons.mp hq with rfl | hq
      · exact hap
      · exact Nat.lt_trans hap (hp q hq)

/-- A write keeps the canonical form. -/
theorem Memory.write_wf {c : Config} {m : Memory} (a : Nat) (w : Byte) (h : Memory.wf c m) :
    Memory.wf c (m.write c a w) := by
  have hsorted : (m.erase a).Pairwise (fun p q => p.1 < q.1) := h.1.filter _
  refine ⟨?_, fun cell hc => ?_⟩
  · simp only [Memory.write]
    split
    · exact hsorted
    · exact Memory.insert_sorted hsorted fun cell hc => by simpa using (List.mem_filter.mp hc).2
  · by_cases hw : w = resetByte c a
    · simp only [Memory.write, if_pos hw] at hc
      exact h.2 cell (List.mem_filter.mp hc).1
    · rcases Memory.mem_write hc with rfl | hc
      · exact hw
      · exact h.2 cell hc

/-- Two canonical memories that read alike are equal data. -/
theorem Memory.ext_of_wf {c : Config} {m n : Memory} (hm : Memory.wf c m) (hn : Memory.wf c n)
    (h : ∀ a, Memory.read c m a = Memory.read c n a) : m = n := by
  have above : ∀ {b : Nat} {u : Byte} {rest : Memory}, Memory.wf c ((b, u) :: rest) →
      (∀ a, a < b → Memory.read c ((b, u) :: rest) a = resetByte c a) ∧
      Memory.read c rest b = resetByte c b ∧ Memory.wf c rest := by
    intro b u rest hwf
    obtain ⟨hb, hs⟩ := List.pairwise_cons.mp hwf.1
    refine ⟨fun a ha => Memory.read_unlisted c _ a fun cell hc => ?_,
      Memory.read_unlisted c _ b fun cell hc => ?_, hs, fun cell hc => hwf.2 cell (by simp [hc])⟩
    · rcases List.mem_cons.mp hc with rfl | hc
      · exact Nat.ne_of_gt ha
      · have := hb cell hc; simp only at this; omega
    · have := hb cell hc; simp only at this; omega
  induction m generalizing n with
  | nil =>
    cases n with
    | nil => rfl
    | cons q rest =>
      have := h q.1
      simp [Memory.read] at this
      exact absurd this.symm (hn.2 q (by simp))
  | cons p rest ih =>
    obtain ⟨b, u⟩ := p
    cases n with
    | nil =>
      have := h b
      simp [Memory.read] at this
      exact absurd this (hm.2 (b, u) (by simp))
    | cons q rest' =>
      obtain ⟨d, w⟩ := q
      have hbd : b = d := by
        rcases Nat.lt_trichotomy b d with hlt | heq | hgt
        · have := h b
          rw [(above hn).1 b hlt] at this
          simp [Memory.read] at this
          exact absurd this (hm.2 (b, u) (by simp))
        · exact heq
        · have := h d
          rw [(above hm).1 d hgt] at this
          simp [Memory.read] at this
          exact absurd this.symm (hn.2 (d, w) (by simp))
      subst hbd
      have huw : u = w := by simpa [Memory.read] using h b
      subst huw
      congr 1
      refine ih (above hm).2.2 (above hn).2.2 fun a => ?_
      by_cases hab : b = a
      · subst hab; rw [(above hm).2.1, (above hn).2.1]
      · simpa [Memory.read, hab] using h a

/-! ## Through the state -/

/-- R51, R52: reading after a write. -/
theorem readByte_writeByte (s : State) (a b : Nat) (w : Byte) :
    (s.writeByte a w).readByte b = if a = b then w else s.readByte b :=
  Memory.read_write s.cfg s.mem a b w

/-- A byte reads alike in two states of the same configuration and memory. -/
theorem readByte_congr {s t : State} (hc : t.cfg = s.cfg) (hm : t.mem = s.mem) (a : Nat) :
    t.readByte a = s.readByte a := by
  simp only [State.readByte, hc, hm]

/-- `writeBytes` changes memory alone. -/
theorem writeBytes_eq (s : State) (a : Nat) (ws : List Byte) :
    s.writeBytes a ws = { s with mem := (s.writeBytes a ws).mem } := by
  induction ws generalizing s a with
  | nil => rfl
  | cons w ws ih =>
    simp only [State.writeBytes]
    rw [ih]
    rfl

/-- `writeBytes` puts byte `k` of the list at `a + k` and touches no other address. -/
theorem readByte_writeBytes (s : State) (a b : Nat) (ws : List Byte) :
    (s.writeBytes a ws).readByte b =
      if a ≤ b ∧ b < a + ws.length then ws.getD (b - a) 0 else s.readByte b := by
  induction ws generalizing s a with
  | nil => simp [State.writeBytes]
  | cons w ws ih =>
    simp only [State.writeBytes, ih, readByte_writeByte, List.length_cons]
    rcases Nat.lt_trichotomy a b with hlt | rfl | hgt
    · have h1 : ¬ a = b := by omega
      have h2 : (a + 1 ≤ b ∧ b < a + 1 + ws.length) ↔ (a ≤ b ∧ b < a + (ws.length + 1)) := by omega
      have h3 : b - a = (b - (a + 1)) + 1 := by omega
      simp only [h1, if_false, h2, h3, List.getD_cons_succ]
    · simp
    · have h1 : ¬ a = b := by omega
      have h2 : ¬ (a + 1 ≤ b ∧ b < a + 1 + ws.length) := by omega
      have h3 : ¬ (a ≤ b ∧ b < a + (ws.length + 1)) := by omega
      simp only [h1, h2, h3, if_false]

/-- `writeBytes` keeps the canonical form. -/
theorem writeBytes_wf {s : State} (a : Nat) (ws : List Byte) (h : Memory.wf s.cfg s.mem) :
    Memory.wf s.cfg (s.writeBytes a ws).mem := by
  induction ws generalizing s a with
  | nil => exact h
  | cons w ws ih => exact ih (s := s.writeByte a w) (a + 1) (Memory.write_wf a w h)

/-- `writeBytes` lists only addresses that were listed or that it wrote. -/
theorem writeBytes_bound {s : State} {bound : Nat} (a : Nat) (ws : List Byte)
    (h : ∀ cell ∈ s.mem, cell.1 < bound) (hr : a + ws.length ≤ bound) :
    ∀ cell ∈ (s.writeBytes a ws).mem, cell.1 < bound := by
  induction ws generalizing s a with
  | nil => exact h
  | cons w ws ih =>
    simp only [List.length_cons] at hr
    refine ih (s := s.writeByte a w) (a + 1) (fun cell hc => ?_) (by omega)
    rcases Memory.mem_write hc with rfl | hc
    · show a < bound; omega
    · exact h cell hc

end Sys2Proof.Machine
end

