-- ==== Sys2Proof/Laws/Ops.lean ====
section
/-! SUPPORT. One lemma per shared operation that says what it does; later proofs cite these and do not
unfold the operation. -/

namespace Sys2Proof.Machine

/-! ## The register file and the latches -/

theorem readV_writeV (s : State) (x r : Reg) (w : Byte) :
    (s.writeV x w).readV r = if r = x then w else s.readV r := by
  simp only [State.readV, State.writeV, Vector.getElem_set]
  by_cases h : r = x
  · simp [h]
  · have : ¬ x.val = r.val := fun e => h (Fin.ext e.symm)
    simp [h, this]

@[simp] theorem readV_writeV_self (s : State) (x : Reg) (w : Byte) : (s.writeV x w).readV x = w := by
  simp [readV_writeV]

@[simp] theorem readV_writeV_ne (s : State) {x r : Reg} (w : Byte) (h : r ≠ x) :
    (s.writeV x w).readV r = s.readV r := by
  simp [readV_writeV, h]

theorem readKey_setKey (s : State) (k j : Key) (b : Bool) :
    (s.setKey k b).readKey j = if j = k then b else s.readKey j := by
  simp only [State.readKey, State.setKey, Vector.getElem_set]
  by_cases h : j = k
  · simp [h]
  · have : ¬ k.val = j.val := fun e => h (Fin.ext e.symm)
    simp [h, this]

/-! ## Flags -/

theorem flagByte_eq_one (b : Bool) : flagByte b = 1 ↔ b = true := by cases b <;> decide

theorem flagByte_eq_zero (b : Bool) : flagByte b = 0 ↔ b = false := by cases b <;> decide

/-- The sum of R127: the wrapped result and the carry. -/
theorem addResult_toNat (a b : Byte) : (addResult a b).toNat = (a.toNat + b.toNat) % 256 := by
  have ha := a.isLt
  have hb := b.isLt
  simp only [addResult, sum9, BitVec.extractLsb'_toNat, BitVec.toNat_add, BitVec.toNat_setWidth]
  omega

theorem addCarry_iff (a b : Byte) : addCarry a b = true ↔ 255 < a.toNat + b.toNat := by
  have ha := a.isLt
  have hb := b.isLt
  simp only [addCarry, sum9, BitVec.getLsbD, BitVec.toNat_add, BitVec.toNat_setWidth,
    Nat.testBit, Nat.shiftRight_eq_div_pow, Nat.one_and_eq_mod_two, bne_iff_ne]
  omega

theorem noBorrow_iff (a b : Byte) : noBorrow a b = true ↔ b.toNat ≤ a.toNat := by
  simp [noBorrow]

theorem shiftedOutRight_iff (a : Byte) : shiftedOutRight a = true ↔ a.toNat % 2 = 1 := by
  have ha := a.isLt
  simp only [shiftedOutRight, BitVec.getLsbD, Nat.testBit, Nat.shiftRight_eq_div_pow,
    Nat.one_and_eq_mod_two, bne_iff_ne]
  omega

theorem shiftedOutLeft_iff (a : Byte) : shiftedOutLeft a = true ↔ 128 ≤ a.toNat := by
  have ha := a.isLt
  simp only [shiftedOutLeft, BitVec.getLsbD, Nat.testBit, Nat.shiftRight_eq_div_pow,
    Nat.one_and_eq_mod_two, bne_iff_ne]
  omega

/-- R120: what each register holds after a result and its flag are written. -/
theorem readV_writeWithFlag (s : State) (d r : Reg) (w : Byte) (f : Bool) :
    (s.writeWithFlag d w f).readV r =
      if r = VF then flagByte f else if r = d then w else s.readV r := by
  simp only [State.writeWithFlag, readV_writeV]

/-- `writeWithFlag` changes the register file alone. -/
theorem writeWithFlag_eq (s : State) (d : Reg) (w : Byte) (f : Bool) :
    s.writeWithFlag d w f = { s with v := (s.writeWithFlag d w f).v } := rfl

/-- R124: a bitwise result in `CHIP8` mode, and in the others. -/
theorem writeLogic_eq (s : State) (d : Reg) (w : Byte) :
    s.writeLogic d w = if s.quirks = .chip8 then s.writeWithFlag d w false else s.writeV d w := by
  cases h : s.quirks <;> simp [State.writeLogic, h]

/-! ## Operands -/

/-- R100: a skip is a write of `PC`. -/
theorem skipIf_eq (s : State) (b : Bool) :
    s.skipIf b = s.setPc (if b then s.pc + 2 else s.pc) := by
  cases b <;> rfl

theorem zextAddr_toNat (nnn : Addr) : (zextAddr nnn).toNat = nnn.toNat := by
  have := nnn.isLt
  simp only [zextAddr, BitVec.toNat_setWidth]
  omega

theorem zextByte_toNat (w : Byte) : (zextByte w).toNat = w.toNat := by
  have := w.isLt
  simp only [zextByte, BitVec.toNat_setWidth]
  omega

theorem shiftSource_eq (s : State) (x y : Reg) :
    s.shiftSource x y = if s.quirks = .chip8 then s.readV y else s.readV x := by
  cases h : s.quirks <;> simp [State.shiftSource, h]

theorem subnDestReg_eq (s : State) (x y : Reg) :
    s.subnDestReg x y = if s.cfg.subnDest = .vy then y else x := by
  cases h : s.cfg.subnDest <;> simp [State.subnDestReg, h]

theorem lowKey_val (w : Byte) : (lowKey w).val = w.toNat % 16 := by
  have : (lowKey w).val = (w.extractLsb' 0 4).toNat := rfl
  rw [this, BitVec.extractLsb'_toNat]
  simp

theorem keyByte_toNat (k : Key) : (keyByte k).toNat = k.val := by
  have := k.isLt
  simp only [keyByte, BitVec.toNat_ofNat]
  omega

/-- The index step is a write of `I` (R154, R155). -/
theorem stepIndex_eq (s : State) (x : Reg) :
    s.stepIndex x = s.setI (if s.quirks = .chip8 then s.i + BitVec.ofNat 16 (x.val + 1) else s.i) := by
  have hsame : s = s.setI s.i := rfl
  cases h : s.quirks <;> simp only [State.stepIndex, h, if_true, reduceCtorEq, if_false] <;> exact hsame

/-- R194: a key is accepted exactly when it is the lowest one latched. -/
theorem firstKey_eq_some (s : State) (k : Key) :
    s.firstKey = some k ↔ s.readKey k = true ∧ ∀ j, j < k → s.readKey j = false := by
  simp only [State.firstKey, List.find?_eq_some_iff_getElem]
  constructor
  · rintro ⟨hk, i, hi, rfl, hlt⟩
    refine ⟨hk, fun j hj => ?_⟩
    have := hlt j.val (by simpa [Fin.lt_def] using hj)
    simpa using this
  · rintro ⟨hk, hlt⟩
    refine ⟨hk, k.val, by simp, by simp, fun j hj => ?_⟩
    have hj16 : j < 16 := by have := k.isLt; omega
    have := hlt ⟨j, hj16⟩ (by simpa [Fin.lt_def] using hj)
    simpa using this

theorem firstKey_eq_none (s : State) : s.firstKey = none ↔ ∀ k, s.readKey k = false := by
  simp [State.firstKey, List.find?_eq_none]

/-! ## Register lists -/

theorem regsUpTo_length (x : Reg) : (regsUpTo x).length = x.val + 1 := by
  have := x.isLt
  simp only [regsUpTo, List.length_take, List.length_finRange]
  omega

theorem mem_regsUpTo (x r : Reg) : r ∈ regsUpTo x ↔ r ≤ x := by
  simp only [regsUpTo, List.mem_take_iff_getElem, List.getElem_finRange, List.length_finRange]
  constructor
  · rintro ⟨j, hj, rfl⟩
    simp only [Fin.le_def, Fin.val_cast]
    omega
  · intro h
    have h' : r.val ≤ x.val := h
    exact ⟨r.val, by have := r.isLt; omega, by simp⟩

theorem regsUpTo_map_getD (x r : Reg) (f : Reg → Byte) (h : r ≤ x) :
    ((regsUpTo x).map f).getD r.val 0 = f r := by
  have h' : r.val ≤ x.val := h
  have hlen : r.val < ((regsUpTo x).map f).length := by
    rw [List.length_map, regsUpTo_length]; omega
  rw [List.getD_eq_getElem _ _ hlen]
  simp [regsUpTo]

/-- `loadRegs` changes the register file alone. -/
theorem loadRegs_eq (s : State) (a : Nat) (rs : List Reg) :
    s.loadRegs a rs = { s with v := (s.loadRegs a rs).v } := by
  induction rs generalizing s with
  | nil => rfl
  | cons r rs ih =>
    simp only [State.loadRegs]
    rw [ih]
    rfl

/-- R155: each register listed is loaded from its own byte, every other register is kept. -/
theorem readV_loadRegs (s : State) (a : Nat) (rs : List Reg) (r : Reg) :
    (s.loadRegs a rs).readV r = if r ∈ rs then s.readByte (a + r.val) else s.readV r := by
  induction rs generalizing s with
  | nil => simp [State.loadRegs]
  | cons q rs ih =>
    simp only [State.loadRegs, ih, readByte_writeV, List.mem_cons]
    by_cases h : r ∈ rs
    · simp [h]
    · by_cases hq : r = q
      · subst hq; simp [h]
      · simp [h, hq]

/-! ## Faults and the call stack -/

@[simp] theorem orRaise_ok (s t : State) : s.orRaise (.ok t) = .next t := rfl

@[simp] theorem orRaise_error (s : State) (kind : FaultKind) :
    s.orRaise (.error kind) = .next (s.latchFault kind s.pc0) := rfl

theorem ifInRange_ok {s t : State} {b : Word} {w : Nat} (h : b.toNat + w ≤ s.cfg.memSize) :
    s.ifInRange b w t = .ok t := by
  simp [State.ifInRange, State.inRange, h]

theorem ifInRange_error {s t : State} {b : Word} {w : Nat} (h : s.cfg.memSize < b.toNat + w) :
    s.ifInRange b w t = .error .memoryOutOfRange := by
  have : ¬ b.toNat + w ≤ s.cfg.memSize := by omega
  simp [State.ifInRange, State.inRange, this]

theorem push_ok {s : State} (w : Word) (h : s.sp ≠ s.cfg.stackDepth) :
    s.push w = .ok { s with stack := s.stack.set s.sp w, sp := s.sp + 1 } := by
  simp [State.push, h]

theorem push_full {s : State} (w : Word) (h : s.sp = s.cfg.stackDepth) :
    s.push w = .error .stackOverflow := by
  simp [State.push, h]

theorem pop_ok {s : State} (h : s.sp ≠ 0) :
    s.pop = .ok (s.stackEntry (s.sp - 1), { s with sp := s.sp - 1 }) := by
  simp [State.pop, h]

theorem pop_empty {s : State} (h : s.sp = 0) : s.pop = .error .stackUnderflow := by
  simp [State.pop, h]

end Sys2Proof.Machine
end

