-- ==== Sys2Proof/Laws/Display.lean ====
section
/-! SUPPORT. What a draw does to the framebuffer, pixel by pixel (43_display.md R173 to R176). -/

namespace Sys2Proof.Machine

/-- A framebuffer of `height` rows of `width` pixels. -/
def Framebuffer.HasShape (f : Framebuffer) (height width : Nat) : Prop :=
  f.length = height ∧ ∀ row ∈ f, row.length = width

theorem blankFb_shape (c : Config) : Framebuffer.HasShape (blankFb c) c.fbH c.fbW := by
  refine ⟨by simp [blankFb], fun row h => ?_⟩
  rw [List.eq_of_mem_replicate h]
  simp

theorem pixel_blankFb (c : Config) (y x : Nat) : Framebuffer.pixel (blankFb c) y x = false := by
  simp only [Framebuffer.pixel, blankFb, List.getD_eq_getElem?_getD, List.getElem?_replicate]
  split
  · simp only [Option.getD_some, List.getElem?_replicate]
    split <;> rfl
  · simp

theorem toggle_shape {f : Framebuffer} {height width : Nat} (y x : Nat) (h : f.HasShape height width) :
    (f.toggle y x).HasShape height width := by
  refine ⟨by simp [Framebuffer.toggle, h.1], fun row hrow => ?_⟩
  obtain ⟨j, hj, rfl⟩ := List.getElem_of_mem hrow
  simp only [Framebuffer.toggle, List.getElem_modify]
  have hj' : j < f.length := by simpa [Framebuffer.toggle] using hj
  split
  · simp [h.2 _ (List.getElem_mem hj')]
  · exact h.2 _ (List.getElem_mem hj')

/-- Toggling changes the pixel it names and no other. -/
theorem pixel_toggle {f : Framebuffer} {height width y x : Nat} (h : f.HasShape height width)
    (hy : y < height) (hx : x < width) (py px : Nat) :
    (f.toggle y x).pixel py px = if py = y ∧ px = x then !f.pixel py px else f.pixel py px := by
  have hyl : y < f.length := by rw [h.1]; exact hy
  have hrow : f[y].length = width := h.2 _ (List.getElem_mem hyl)
  by_cases hpy : y = py
  · subst hpy
    by_cases hpx : x = px
    · subst hpx
      have hxl : x < f[y].length := by omega
      simp [Framebuffer.pixel, Framebuffer.toggle, hyl, hxl]
    · have hpx' : px ≠ x := fun e => hpx e.symm
      simp [Framebuffer.pixel, Framebuffer.toggle, hyl, hpx, hpx']
  · have hpy' : py ≠ y := fun e => hpy e.symm
    simp [Framebuffer.pixel, Framebuffer.toggle, hpy, hpy']

/-! ## What part of a draw does -/

/-- From `b` to `d` exactly the pixels of `covers` were toggled, and a collision is noted exactly if one
of them was on (or one had been noted before). -/
structure Blit.Toggles (b d : Blit) (covers : Nat → Nat → Prop) : Prop where
  toggled : ∀ y x, covers y x → d.fb.pixel y x = !b.fb.pixel y x
  kept : ∀ y x, ¬ covers y x → d.fb.pixel y x = b.fb.pixel y x
  collides : d.collision = true ↔ b.collision = true ∨ ∃ y x, covers y x ∧ b.fb.pixel y x = true

theorem Blit.Toggles.none (b : Blit) : b.Toggles b (fun _ _ => False) :=
  ⟨fun _ _ h => h.elim, fun _ _ _ => rfl, by simp⟩

theorem Blit.Toggles.congr {b d : Blit} {p q : Nat → Nat → Prop} (h : b.Toggles d p)
    (hpq : ∀ y x, p y x ↔ q y x) : b.Toggles d q := by
  have : p = q := funext fun y => funext fun x => propext (hpq y x)
  exact this ▸ h

/-- Two parts of a draw that cover different pixels, one after the other. -/
theorem Blit.Toggles.trans {b d e : Blit} {p q : Nat → Nat → Prop} (hp : b.Toggles d p)
    (hq : d.Toggles e q) (hdis : ∀ y x, p y x → ¬ q y x) :
    b.Toggles e (fun y x => p y x ∨ q y x) := by
  refine ⟨fun y x h => ?_, fun y x h => ?_, ?_⟩
  · rcases h with h | h
    · rw [hq.kept y x (hdis y x h), hp.toggled y x h]
    · rw [hq.toggled y x h, hp.kept y x fun hpx => hdis y x hpx h]
  · rw [hq.kept y x fun c => h (.inr c), hp.kept y x fun c => h (.inl c)]
  · rw [hq.collides, hp.collides]
    constructor
    · rintro ((h | ⟨y, x, hc, hon⟩) | ⟨y, x, hc, hon⟩)
      · exact .inl h
      · exact .inr ⟨y, x, .inl hc, hon⟩
      · exact .inr ⟨y, x, .inr hc, by rwa [hp.kept y x fun c => hdis y x c hc] at hon⟩
    · rintro (h | ⟨y, x, hc | hc, hon⟩)
      · exact .inl (.inl h)
      · exact .inl (.inr ⟨y, x, hc, hon⟩)
      · exact .inr ⟨y, x, hc, by rwa [hp.kept y x fun c => hdis y x c hc]⟩

theorem Blit.Toggles.hit {b : Blit} {height width y x : Nat} (h : b.fb.HasShape height width)
    (hy : y < height) (hx : x < width) : b.Toggles (b.hit y x) (fun py px => py = y ∧ px = x) := by
  refine ⟨fun py px hc => ?_, fun py px hc => ?_, ?_⟩
  · simp only [Blit.hit, pixel_toggle h hy hx, if_pos hc]
  · simp only [Blit.hit, pixel_toggle h hy hx, if_neg hc]
  · simp only [Blit.hit, Bool.or_eq_true]
    constructor
    · rintro (h | h)
      · exact .inl h
      · exact .inr ⟨y, x, ⟨rfl, rfl⟩, h⟩
    · rintro (h | ⟨_, _, ⟨rfl, rfl⟩, h⟩)
      · exact .inl h
      · exact .inr h

/-! ## One row, and all rows -/

theorem blitCols_shape {height width y x0 : Nat} {w : Byte} (cs : List Nat) {b : Blit}
    (h : b.fb.HasShape height width) : (blitCols width y x0 w cs b).fb.HasShape height width := by
  induction cs generalizing b with
  | nil => exact h
  | cons c cs ih =>
    simp only [blitCols]
    split
    · exact h
    · refine ih ?_
      split
      · exact toggle_shape y (x0 + c) h
      · exact h

/-- The columns `c`, `c+1`, ... of one row: the visible ones whose bit is 1 are toggled (R171, R173). -/
theorem blitCols_toggles {height width y x0 : Nat} {w : Byte} (n c : Nat) {b : Blit}
    (h : b.fb.HasShape height width) (hy : y < height) :
    b.Toggles (blitCols width y x0 w (List.range' c n) b) (fun py px =>
      py = y ∧ x0 + c ≤ px ∧ px < x0 + c + n ∧ px < width ∧ spriteBit w (px - x0) = true) := by
  induction n generalizing b c with
  | zero =>
    exact (Blit.Toggles.none b).congr fun py px => ⟨False.elim, fun hh => by omega⟩
  | succ n ih =>
    simp only [List.range'_succ, blitCols]
    split
    · exact (Blit.Toggles.none b).congr fun py px => ⟨False.elim, fun hh => by omega⟩
    · rename_i hx
      by_cases hbit : spriteBit w c = true
      · simp only [hbit, if_true]
        have hhit := Blit.Toggles.hit (b := b) h hy (x := x0 + c) (by omega)
        have hrest := ih (c + 1) (b := b.hit y (x0 + c)) (toggle_shape y (x0 + c) h)
        refine (hhit.trans hrest fun py px h1 h2 => by omega).congr fun py px => ?_
        constructor
        · rintro (⟨rfl, rfl⟩ | ⟨rfl, h1, h2, h3, h4⟩)
          · exact ⟨rfl, by omega, by omega, by omega, by rwa [Nat.add_sub_cancel_left]⟩
          · exact ⟨rfl, by omega, by omega, h3, h4⟩
        · rintro ⟨rfl, h1, h2, h3, h4⟩
          rcases Nat.eq_or_lt_of_le h1 with heq | hlt
          · exact .inl ⟨rfl, heq.symm⟩
          · exact .inr ⟨rfl, by omega, by omega, h3, h4⟩
      · simp only [hbit, if_false, Bool.false_eq_true]
        refine (ih (c + 1) h).congr fun py px => ?_
        constructor
        · rintro ⟨rfl, h1, h2, h3, h4⟩
          exact ⟨rfl, by omega, by omega, h3, h4⟩
        · rintro ⟨rfl, h1, h2, h3, h4⟩
          rcases Nat.eq_or_lt_of_le h1 with heq | hlt
          · exact absurd (by rw [← heq, Nat.add_sub_cancel_left] at h4; exact h4) hbit
          · exact ⟨rfl, by omega, by omega, h3, h4⟩

theorem blitRows_shape {height width y0 x0 : Nat} {row : Nat → Byte} (rs : List Nat) {b : Blit}
    (h : b.fb.HasShape height width) :
    (blitRows width height y0 x0 row rs b).fb.HasShape height width := by
  induction rs generalizing b with
  | nil => exact h
  | cons r rs ih =>
    simp only [blitRows]
    split
    · exact h
    · exact ih (blitCols_shape _ h)

/-- The rows `r`, `r+1`, ... of a sprite: the visible pixels whose bit is 1 are toggled (R173, R174). -/
theorem blitRows_toggles {height width y0 x0 : Nat} {row : Nat → Byte} (n r : Nat) {b : Blit}
    (h : b.fb.HasShape height width) :
    b.Toggles (blitRows width height y0 x0 row (List.range' r n) b) (fun py px =>
      y0 + r ≤ py ∧ py < y0 + r + n ∧ py < height ∧ x0 ≤ px ∧ px < x0 + 8 ∧ px < width ∧
        spriteBit (row (py - y0)) (px - x0) = true) := by
  induction n generalizing b r with
  | zero =>
    exact (Blit.Toggles.none b).congr fun py px => ⟨False.elim, fun hh => by omega⟩
  | succ n ih =>
    simp only [List.range'_succ, blitRows]
    split
    · exact (Blit.Toggles.none b).congr fun py px => ⟨False.elim, fun hh => by omega⟩
    · rename_i hy
      have hrow := blitCols_toggles (width := width) (x0 := x0) (w := row r) 8 0 h
        (y := y0 + r) (by omega)
      have hrest := ih (r + 1)
        (b := blitCols width (y0 + r) x0 (row r) (List.range 8) b) (blitCols_shape _ h)
      rw [← List.range_eq_range'] at hrow
      refine (hrow.trans hrest fun py px h1 h2 => by omega).congr fun py px => ?_
      constructor
      · rintro (⟨rfl, h1, h2, h3, h4⟩ | ⟨h1, h2, h3, h4⟩)
        · exact ⟨by omega, by omega, by omega, by omega, by omega, h3,
            by rwa [Nat.add_sub_cancel_left]⟩
        · exact ⟨by omega, by omega, h3, h4⟩
      · rintro ⟨h1, h2, h3, h4, h5, h6, h7⟩
        rcases Nat.eq_or_lt_of_le h1 with heq | hlt
        · subst heq
          rw [Nat.add_sub_cancel_left] at h7
          exact .inl ⟨rfl, by omega, by omega, h6, h7⟩
        · exact .inr ⟨by omega, by omega, h3, h4, h5, h6, h7⟩

/-! ## Through the state -/

theorem blit_shape {s : State} (h : s.fb.HasShape s.cfg.fbH s.cfg.fbW) (x y : Reg) (rows : Nat) :
    (s.blit x y rows).fb.HasShape s.cfg.fbH s.cfg.fbW := blitRows_shape _ h

/-- R173 as a whole: which pixels a draw of `rows` rows toggles, and when it collides. -/
theorem blit_toggles {s : State} (h : s.fb.HasShape s.cfg.fbH s.cfg.fbW) (x y : Reg) (rows : Nat) :
    Blit.Toggles ⟨s.fb, false⟩ (s.blit x y rows) (fun py px =>
      s.drawY y ≤ py ∧ py < s.drawY y + rows ∧ py < s.cfg.fbH ∧
      s.drawX x ≤ px ∧ px < s.drawX x + 8 ∧ px < s.cfg.fbW ∧
      spriteBit (s.readByte (s.i.toNat + (py - s.drawY y))) (px - s.drawX x) = true) := by
  have := blitRows_toggles (width := s.cfg.fbW) (y0 := s.drawY y) (x0 := s.drawX x)
    (row := fun r => s.readByte (s.i.toNat + r)) rows 0 (b := ⟨s.fb, false⟩) h
  rw [← List.range_eq_range'] at this
  exact this.congr fun py px => by simp only [Nat.add_zero]

/-- Two framebuffers of one shape with the same pixels are equal data. -/
theorem fb_ext {f g : Framebuffer} {height width : Nat} (hf : f.HasShape height width)
    (hg : g.HasShape height width) (h : ∀ y x, f.pixel y x = g.pixel y x) : f = g := by
  refine List.ext_getElem (by rw [hf.1, hg.1]) fun y h1 h2 => ?_
  have hfw := hf.2 _ (List.getElem_mem h1)
  have hgw := hg.2 _ (List.getElem_mem h2)
  refine List.ext_getElem (by rw [hfw, hgw]) fun x h3 h4 => ?_
  have := h y x
  simpa [Framebuffer.pixel, h1, h2, h3, h4] using this

end Sys2Proof.Machine
end

