-- ==== Sys2Proof/Laws/Frame.lean ====
section
/-! SUPPORT. Frames: what each kind of update leaves unchanged, and how frames combine. -/

namespace Sys2Proof.Machine

/-- Nothing has changed. -/
theorem OnlyChanged.refl (s : State) : OnlyChanged [] s s := by
  intro p _
  cases p <;> simp [Part.Same]

/-- A frame may name more parts than were changed. -/
theorem OnlyChanged.mono {ps qs : List Part} {s t : State} (h : OnlyChanged ps s t)
    (hsub : ∀ p ∈ ps, p ∈ qs) : OnlyChanged qs s t :=
  fun p hp => h p fun hm => hp (hsub p hm)

/-- Two changes one after the other. -/
theorem OnlyChanged.trans {ps qs : List Part} {s t u : State} (h : OnlyChanged ps s t)
    (h' : OnlyChanged qs t u) : OnlyChanged (ps ++ qs) s u := by
  intro p hp
  simp only [List.mem_append, not_or] at hp
  have a := h p hp.1
  have b := h' p hp.2
  cases p <;> simp only [Part.Same] at a b ⊢ <;> simp [*]

/-- An update of the register file alone. -/
theorem onlyChanged_v (s : State) (v' : Vector Byte 16) : OnlyChanged [.v] s { s with v := v' } := by
  intro p hp
  cases p <;> first | exact rfl | exact ⟨rfl, rfl⟩ | exact fun _ => rfl | simp at hp

/-- An update of memory alone. -/
theorem onlyChanged_mem (s : State) (m : Memory) : OnlyChanged [.mem] s { s with mem := m } := by
  intro p hp
  cases p <;> first | exact rfl | exact ⟨rfl, rfl⟩ | exact fun _ => rfl | simp at hp

/-- An update of the stack alone. -/
theorem onlyChanged_stack (s : State) (l : List Word) (n : Nat) :
    OnlyChanged [.stack] s { s with stack := l, sp := n } := by
  intro p hp
  cases p <;> first | exact rfl | exact ⟨rfl, rfl⟩ | exact fun _ => rfl | simp at hp

theorem onlyChanged_setPc (s : State) (w : Word) : OnlyChanged [.pc] s (s.setPc w) := by
  intro p hp
  cases p <;> first | exact rfl | exact ⟨rfl, rfl⟩ | exact fun _ => rfl | simp at hp

theorem onlyChanged_setI (s : State) (w : Word) : OnlyChanged [.i] s (s.setI w) := by
  intro p hp
  cases p <;> first | exact rfl | exact ⟨rfl, rfl⟩ | exact fun _ => rfl | simp at hp

theorem onlyChanged_setKey (s : State) (k : Key) (b : Bool) : OnlyChanged [.key] s (s.setKey k b) := by
  intro p hp
  cases p <;> first | exact rfl | exact ⟨rfl, rfl⟩ | exact fun _ => rfl | simp at hp

theorem onlyChanged_setDraw (s : State) (b : Bool) : OnlyChanged [.draw] s (s.setDraw b) := by
  intro p hp
  cases p <;> first | exact rfl | exact ⟨rfl, rfl⟩ | exact fun _ => rfl | simp at hp

theorem onlyChanged_bumpDraws (s : State) : OnlyChanged [.draws] s s.bumpDraws := by
  intro p hp
  cases p <;> first | exact rfl | exact ⟨rfl, rfl⟩ | exact fun _ => rfl | simp at hp

/-- A fault changes `PC` and `FAULT` alone (60_exceptions.md R211). -/
theorem onlyChanged_latchFault (s : State) (kind : FaultKind) (pc0 : Word) :
    OnlyChanged [.pc, .fault] s (s.latchFault kind pc0) := by
  intro p hp
  cases p <;> first | exact rfl | exact ⟨rfl, rfl⟩ | exact fun _ => rfl | simp at hp

/-- A result and its flag change the register file alone. -/
theorem onlyChanged_writeWithFlag (s : State) (d : Reg) (w : Byte) (f : Bool) :
    OnlyChanged [.v] s (s.writeWithFlag d w f) := onlyChanged_v s _

/-- A bitwise result changes the register file alone. -/
theorem onlyChanged_writeLogic (s : State) (d : Reg) (w : Byte) :
    OnlyChanged [.v] s (s.writeLogic d w) := by
  rw [writeLogic_eq]
  split <;> exact onlyChanged_v s _

/-- A skip changes `PC` alone. -/
theorem onlyChanged_skipIf (s : State) (b : Bool) : OnlyChanged [.pc] s (s.skipIf b) := by
  rw [skipIf_eq]
  exact onlyChanged_setPc s _

/-- Looking a key up changes at most the count of draws (R190, log 5). -/
theorem onlyChanged_afterKeyState (s : State) (w : Byte) :
    OnlyChanged [.draws] s (s.afterKeyState w) := by
  have hsame : OnlyChanged [.draws] s s := (OnlyChanged.refl s).mono (by simp)
  simp only [State.afterKeyState]
  split
  · exact hsame
  · split
    · exact onlyChanged_bumpDraws s
    · exact hsame
    · exact hsame

/-- Consuming a key changes at most the latches. -/
theorem onlyChanged_consumeKey (s : State) (k : Key) : OnlyChanged [.key] s (s.consumeKey k) := by
  simp only [State.consumeKey]
  split
  · exact onlyChanged_setKey s k false
  · exact (OnlyChanged.refl s).mono (by simp)

/-- The index step changes at most `I`. -/
theorem onlyChanged_stepIndex (s : State) (x : Reg) : OnlyChanged [.i] s (s.stepIndex x) := by
  rw [stepIndex_eq]
  exact onlyChanged_setI s _

theorem onlyChanged_writeBytes (s : State) (a : Nat) (ws : List Byte) :
    OnlyChanged [.mem] s (s.writeBytes a ws) := by
  rw [writeBytes_eq]
  exact onlyChanged_mem s _

theorem onlyChanged_loadRegs (s : State) (a : Nat) (rs : List Reg) :
    OnlyChanged [.v] s (s.loadRegs a rs) := by
  rw [loadRegs_eq]
  exact onlyChanged_v s _

/-- A draw changes the framebuffer, `VF` and `DRAW` (43_display.md R173). -/
theorem onlyChanged_finishDraw (s : State) (b : Blit) :
    OnlyChanged [.fb, .v, .draw] s (s.finishDraw b) := by
  intro p hp
  cases p <;> first | exact rfl | exact ⟨rfl, rfl⟩ | exact fun _ => rfl | simp at hp

end Sys2Proof.Machine
end

