-- ==== Sys2Proof/Laws/Exec.lean ====
section
/-! SUPPORT. What an instruction can do, said once: which parts of the state it can change, and that its
answer is a next state. Whole-machine claims are derived from these. -/

namespace Sys2Proof.Machine

/-- The parts of the state that an instruction can change, a fault included. -/
def touched : Instr → List Part
  | .cls => [.fb, .draw]
  | .ret => [.stack, .pc, .fault]
  | .jp _ => [.pc]
  | .call _ => [.stack, .pc, .fault]
  | .seImm _ _ => [.pc]
  | .sneImm _ _ => [.pc]
  | .seReg _ _ => [.pc]
  | .ldImm _ _ => [.v]
  | .addImm _ _ => [.v]
  | .ldReg _ _ => [.v]
  | .or _ _ => [.v]
  | .and _ _ => [.v]
  | .xor _ _ => [.v]
  | .addReg _ _ => [.v]
  | .sub _ _ => [.v]
  | .shr _ _ => [.v]
  | .subn _ _ => [.v]
  | .shl _ _ => [.v]
  | .sneReg _ _ => [.pc]
  | .ldI _ => [.i]
  | .jpV0 _ => [.pc]
  | .rnd _ _ => [.draws, .v]
  | .drw _ _ _ => [.fb, .v, .draw, .pc, .fault]
  | .skp _ => [.draws, .pc]
  | .sknp _ => [.draws, .pc]
  | .ldVxDt _ => [.v]
  | .ldVxK _ => [.v, .key, .pc]
  | .ldDtVx _ => [.dt]
  | .ldStVx _ => [.st]
  | .addIVx _ => [.i]
  | .ldFVx _ => [.i]
  | .ldBVx _ => [.mem, .pc, .fault]
  | .ldMemVx _ => [.mem, .i, .pc, .fault]
  | .ldVxMem _ => [.v, .i, .pc, .fault]

/-- An instruction that can fault either leaves `t` or leaves the fault of R211. -/
theorem orRaise_cases {s u : State} {r : Except FaultKind State} (h : s.orRaise r = .next u) :
    r = .ok u ∨ ∃ kind, r = .error kind ∧ u = s.latchFault kind s.pc0 := by
  cases r with
  | ok t => exact .inl (by rw [orRaise_ok] at h; rw [Host.Outcome.next.inj h])
  | error kind => exact .inr ⟨kind, rfl, by rw [orRaise_error] at h; exact (Host.Outcome.next.inj h).symm⟩

/-- The range check lets an effect through unchanged or raises `MemoryOutOfRange` (R53). -/
theorem ifInRange_cases (s t : State) (b : Word) (w : Nat) :
    (b.toNat + w ≤ s.cfg.memSize ∧ s.ifInRange b w t = .ok t) ∨
    (s.cfg.memSize < b.toNat + w ∧ s.ifInRange b w t = .error .memoryOutOfRange) := by
  by_cases h : b.toNat + w ≤ s.cfg.memSize
  · exact .inl ⟨h, ifInRange_ok h⟩
  · exact .inr ⟨by omega, ifInRange_error (by omega)⟩

/-- The two outcomes of an effect behind a range check. -/
theorem orRaise_ifInRange_cases {s t u : State} {b : Word} {w : Nat}
    (h : s.orRaise (s.ifInRange b w t) = .next u) :
    (b.toNat + w ≤ s.cfg.memSize ∧ u = t) ∨
    (s.cfg.memSize < b.toNat + w ∧ u = s.latchFault .memoryOutOfRange s.pc0) := by
  rcases ifInRange_cases s t b w with ⟨hr, he⟩ | ⟨hr, he⟩ <;> rw [he] at h
  · exact .inl ⟨hr, (Host.Outcome.next.inj h).symm⟩
  · exact .inr ⟨hr, (Host.Outcome.next.inj h).symm⟩

/-- The two outcomes of `00EE`. -/
theorem execRet_cases {s u : State} (h : execRet s = .next u) :
    (s.sp ≠ 0 ∧ u = State.setPc { s with sp := s.sp - 1 } (s.stackEntry (s.sp - 1))) ∨
    (s.sp = 0 ∧ u = s.latchFault .stackUnderflow s.pc0) := by
  by_cases hs : s.sp = 0
  · rw [execRet, pop_empty hs] at h
    exact .inr ⟨hs, (Host.Outcome.next.inj h).symm⟩
  · rw [execRet, pop_ok hs] at h
    exact .inl ⟨hs, (Host.Outcome.next.inj h).symm⟩

/-- The two outcomes of `2NNN`. -/
theorem execCall_cases {nnn : Addr} {s u : State} (h : execCall nnn s = .next u) :
    (s.sp ≠ s.cfg.stackDepth ∧
      u = State.setPc { s with stack := s.stack.set s.sp s.pc, sp := s.sp + 1 } (zextAddr nnn)) ∨
    (s.sp = s.cfg.stackDepth ∧ u = s.latchFault .stackOverflow s.pc0) := by
  by_cases hs : s.sp = s.cfg.stackDepth
  · rw [execCall, push_full s.pc hs] at h
    exact .inr ⟨hs, (Host.Outcome.next.inj h).symm⟩
  · rw [execCall, push_ok s.pc hs] at h
    exact .inl ⟨hs, (Host.Outcome.next.inj h).symm⟩

/-- The two outcomes of `FX0A`. -/
theorem execLdVxK_cases {x : Reg} {s u : State} (h : execLdVxK x s = .next u) :
    (s.firstKey = none ∧ u = s.setPc (s.pc - 2)) ∨
    (∃ k, s.firstKey = some k ∧ u = (s.writeV x (keyByte k)).consumeKey k) := by
  cases hk : s.firstKey with
  | none => simp only [execLdVxK, hk] at h; exact .inl ⟨rfl, (Host.Outcome.next.inj h).symm⟩
  | some k => simp only [execLdVxK, hk] at h; exact .inr ⟨k, rfl, (Host.Outcome.next.inj h).symm⟩

/-- Every instruction changes only the parts it can touch. -/
theorem exec_frame {i : Instr} {s t : State} (h : exec i s = .next t) :
    OnlyChanged (touched i) s t := by
  have fault : ∀ {ps : List Part} {kind : FaultKind} {pc0 : Word}, .pc ∈ ps → .fault ∈ ps →
      OnlyChanged ps s (s.latchFault kind pc0) := fun h1 h2 =>
    (onlyChanged_latchFault s _ _).mono (by simp [h1, h2])
  cases i with
  | cls =>
    obtain rfl := Host.Outcome.next.inj h
    intro p hp
    cases p <;> first | exact rfl | exact ⟨rfl, rfl⟩ | exact fun _ => rfl | simp [touched] at hp
  | ret =>
    rcases execRet_cases h with ⟨-, rfl⟩ | ⟨-, rfl⟩
    · exact ((onlyChanged_stack s s.stack _).trans (onlyChanged_setPc _ _)).mono (by simp [touched])
    · exact fault (by simp [touched]) (by simp [touched])
  | call nnn =>
    rcases execCall_cases h with ⟨-, rfl⟩ | ⟨-, rfl⟩
    · exact ((onlyChanged_stack s _ _).trans (onlyChanged_setPc _ _)).mono (by simp [touched])
    · exact fault (by simp [touched]) (by simp [touched])
  | jp nnn => obtain rfl := Host.Outcome.next.inj h; exact onlyChanged_setPc s _
  | seImm x nn => obtain rfl := Host.Outcome.next.inj h; exact onlyChanged_skipIf s _
  | sneImm x nn => obtain rfl := Host.Outcome.next.inj h; exact onlyChanged_skipIf s _
  | seReg x y => obtain rfl := Host.Outcome.next.inj h; exact onlyChanged_skipIf s _
  | sneReg x y => obtain rfl := Host.Outcome.next.inj h; exact onlyChanged_skipIf s _
  | jpV0 nnn => obtain rfl := Host.Outcome.next.inj h; exact onlyChanged_setPc s _
  | ldImm x nn => obtain rfl := Host.Outcome.next.inj h; exact onlyChanged_v s _
  | addImm x nn => obtain rfl := Host.Outcome.next.inj h; exact onlyChanged_v s _
  | ldReg x y => obtain rfl := Host.Outcome.next.inj h; exact onlyChanged_v s _
  | or x y => obtain rfl := Host.Outcome.next.inj h; exact onlyChanged_writeLogic s _ _
  | and x y => obtain rfl := Host.Outcome.next.inj h; exact onlyChanged_writeLogic s _ _
  | xor x y => obtain rfl := Host.Outcome.next.inj h; exact onlyChanged_writeLogic s _ _
  | addReg x y => obtain rfl := Host.Outcome.next.inj h; exact onlyChanged_v s _
  | sub x y => obtain rfl := Host.Outcome.next.inj h; exact onlyChanged_v s _
  | shr x y => obtain rfl := Host.Outcome.next.inj h; exact onlyChanged_v s _
  | subn x y => obtain rfl := Host.Outcome.next.inj h; exact onlyChanged_v s _
  | shl x y => obtain rfl := Host.Outcome.next.inj h; exact onlyChanged_v s _
  | ldI nnn => obtain rfl := Host.Outcome.next.inj h; exact onlyChanged_setI s _
  | addIVx x => obtain rfl := Host.Outcome.next.inj h; exact onlyChanged_setI s _
  | ldFVx x => obtain rfl := Host.Outcome.next.inj h; exact onlyChanged_setI s _
  | rnd x nn =>
    obtain rfl := Host.Outcome.next.inj h
    exact (onlyChanged_bumpDraws s).trans (onlyChanged_v _ _)
  | skp x =>
    obtain rfl := Host.Outcome.next.inj h
    exact (onlyChanged_afterKeyState s _).trans (onlyChanged_skipIf _ _)
  | sknp x =>
    obtain rfl := Host.Outcome.next.inj h
    exact (onlyChanged_afterKeyState s _).trans (onlyChanged_skipIf _ _)
  | ldVxDt x => obtain rfl := Host.Outcome.next.inj h; exact onlyChanged_v s _
  | ldVxK x =>
    rcases execLdVxK_cases h with ⟨-, rfl⟩ | ⟨k, -, rfl⟩
    · exact (onlyChanged_setPc s _).mono (by simp [touched])
    · exact ((onlyChanged_v s _).trans (onlyChanged_consumeKey _ _)).mono (by simp [touched])
  | ldDtVx x =>
    obtain rfl := Host.Outcome.next.inj h
    intro p hp
    cases p <;> first | exact rfl | exact ⟨rfl, rfl⟩ | exact fun _ => rfl | simp [touched] at hp
  | ldStVx x =>
    obtain rfl := Host.Outcome.next.inj h
    intro p hp
    cases p <;> first | exact rfl | exact ⟨rfl, rfl⟩ | exact fun _ => rfl | simp [touched] at hp
  | drw x y n =>
    rcases orRaise_ifInRange_cases h with ⟨-, rfl⟩ | ⟨-, rfl⟩
    · exact (onlyChanged_finishDraw s _).mono (by simp [touched])
    · exact fault (by simp [touched]) (by simp [touched])
  | ldBVx x =>
    rcases orRaise_ifInRange_cases h with ⟨-, rfl⟩ | ⟨-, rfl⟩
    · exact (onlyChanged_writeBytes s _ _).mono (by simp [touched])
    · exact fault (by simp [touched]) (by simp [touched])
  | ldMemVx x =>
    rcases orRaise_ifInRange_cases h with ⟨-, rfl⟩ | ⟨-, rfl⟩
    · exact ((onlyChanged_writeBytes s _ _).trans (onlyChanged_stepIndex _ _)).mono
        (by simp [touched])
    · exact fault (by simp [touched]) (by simp [touched])
  | ldVxMem x =>
    rcases orRaise_ifInRange_cases h with ⟨-, rfl⟩ | ⟨-, rfl⟩
    · exact ((onlyChanged_loadRegs s _ _).trans (onlyChanged_stepIndex _ _)).mono
        (by simp [touched])
    · exact fault (by simp [touched]) (by simp [touched])

end Sys2Proof.Machine
end

