-- ==== Sys2Proof/Laws/PerInstr.lean ====
section
/-! SUPPORT. Every instruction's opcode lies in its own row of spec/opcode_table.json: masked with the
row's `mask` it is the row's `match`. The rows below are copied from the table; the encoder is written
from the formats of 30_encoding.md R71. -/

namespace Sys2Proof.Laws

/-- The `mask` and the `match` of an instruction's row. -/
def tableRow : Instr → Word × Word
  | .cls => (0xFFFF, 0x00E0)
  | .ret => (0xFFFF, 0x00EE)
  | .jp _ => (0xF000, 0x1000)
  | .call _ => (0xF000, 0x2000)
  | .seImm _ _ => (0xF000, 0x3000)
  | .sneImm _ _ => (0xF000, 0x4000)
  | .seReg _ _ => (0xF00F, 0x5000)
  | .ldImm _ _ => (0xF000, 0x6000)
  | .addImm _ _ => (0xF000, 0x7000)
  | .ldReg _ _ => (0xF00F, 0x8000)
  | .or _ _ => (0xF00F, 0x8001)
  | .and _ _ => (0xF00F, 0x8002)
  | .xor _ _ => (0xF00F, 0x8003)
  | .addReg _ _ => (0xF00F, 0x8004)
  | .sub _ _ => (0xF00F, 0x8005)
  | .shr _ _ => (0xF00F, 0x8006)
  | .subn _ _ => (0xF00F, 0x8007)
  | .shl _ _ => (0xF00F, 0x800E)
  | .sneReg _ _ => (0xF00F, 0x9000)
  | .ldI _ => (0xF000, 0xA000)
  | .jpV0 _ => (0xF000, 0xB000)
  | .rnd _ _ => (0xF000, 0xC000)
  | .drw _ _ _ => (0xF000, 0xD000)
  | .skp _ => (0xF0FF, 0xE09E)
  | .sknp _ => (0xF0FF, 0xE0A1)
  | .ldVxDt _ => (0xF0FF, 0xF007)
  | .ldVxK _ => (0xF0FF, 0xF00A)
  | .ldDtVx _ => (0xF0FF, 0xF015)
  | .ldStVx _ => (0xF0FF, 0xF018)
  | .addIVx _ => (0xF0FF, 0xF01E)
  | .ldFVx _ => (0xF0FF, 0xF029)
  | .ldBVx _ => (0xF0FF, 0xF033)
  | .ldMemVx _ => (0xF0FF, 0xF055)
  | .ldVxMem _ => (0xF0FF, 0xF065)

/-- The opcode of the instruction matches its row. -/
def EncodeMatchesRow.Statement (i : Instr) : Prop := encode i &&& (tableRow i).1 = (tableRow i).2

/-! ## The masks of the table on a packed word -/

theorem mask_packNNN (f : Nibble) (nnn : Addr) : packNNN f nnn &&& 0xF000 = f ++ (0 : Addr) := by
  have h : (0xF000 : Word) = 0xF#4 ++ 0#12 := by decide
  rw [h, packNNN, BitVec.and_append]
  congr 1
  · exact BitVec.and_allOnes
  · exact BitVec.and_zero

theorem mask_packXNN (f : Nibble) (x : Reg) (nn : Byte) :
    packXNN f x nn &&& 0xF000 = f ++ (0 : Addr) := mask_packNNN f (regField x ++ nn)

theorem mask_packXOP (f : Nibble) (x : Reg) (nn : Byte) :
    packXNN f x nn &&& 0xF0FF = f ++ (0#4 ++ nn) := by
  have h : (0xF0FF : Word) = 0xF#4 ++ (0#4 ++ 0xFF#8) := by decide
  rw [h, packXNN, BitVec.and_append, BitVec.and_append]
  congr 1
  · exact BitVec.and_allOnes
  · congr 1
    · exact BitVec.and_zero
    · exact BitVec.and_allOnes

theorem mask_packXY (f : Nibble) (x y : Reg) (n : Nibble) :
    packXYN f x y n &&& 0xF00F = f ++ (0#8 ++ n) := by
  have h : (0xF00F : Word) = 0xF#4 ++ (0#4 ++ (0#4 ++ 0xF#4)) := by decide
  rw [h, packXYN, BitVec.and_append, BitVec.and_append, BitVec.and_append]
  congr 1
  · exact BitVec.and_allOnes
  · have hz : (regField x &&& 0#4) ++ ((regField y &&& 0#4) ++ (n &&& 0xF#4)) = (0#8 ++ n : Addr) := by
      have e : n &&& 0xF#4 = n := BitVec.and_allOnes
      rw [BitVec.and_zero, BitVec.and_zero, e]
      revert n
      decide
    exact hz

theorem mask_packXYN (f : Nibble) (x y : Reg) (n : Nibble) :
    packXYN f x y n &&& 0xF000 = f ++ (0 : Addr) := mask_packNNN f (regField x ++ (regField y ++ n))

/-! ## One lemma per instruction -/

theorem EncodeMatchesRow.cls : EncodeMatchesRow.Statement .cls :=
  rfl

theorem EncodeMatchesRow.ret : EncodeMatchesRow.Statement .ret :=
  rfl

theorem EncodeMatchesRow.jp (nnn : Addr) : EncodeMatchesRow.Statement (.jp nnn) :=
  (mask_packNNN 0x1 nnn).trans rfl

theorem EncodeMatchesRow.call (nnn : Addr) : EncodeMatchesRow.Statement (.call nnn) :=
  (mask_packNNN 0x2 nnn).trans rfl

theorem EncodeMatchesRow.seImm (x : Reg) (nn : Byte) : EncodeMatchesRow.Statement (.seImm x nn) :=
  (mask_packXNN 0x3 x nn).trans rfl

theorem EncodeMatchesRow.sneImm (x : Reg) (nn : Byte) : EncodeMatchesRow.Statement (.sneImm x nn) :=
  (mask_packXNN 0x4 x nn).trans rfl

theorem EncodeMatchesRow.seReg (x : Reg) (y : Reg) : EncodeMatchesRow.Statement (.seReg x y) :=
  (mask_packXY 0x5 x y 0x0).trans rfl

theorem EncodeMatchesRow.ldImm (x : Reg) (nn : Byte) : EncodeMatchesRow.Statement (.ldImm x nn) :=
  (mask_packXNN 0x6 x nn).trans rfl

theorem EncodeMatchesRow.addImm (x : Reg) (nn : Byte) : EncodeMatchesRow.Statement (.addImm x nn) :=
  (mask_packXNN 0x7 x nn).trans rfl

theorem EncodeMatchesRow.ldReg (x : Reg) (y : Reg) : EncodeMatchesRow.Statement (.ldReg x y) :=
  (mask_packXY 0x8 x y 0x0).trans rfl

theorem EncodeMatchesRow.or (x : Reg) (y : Reg) : EncodeMatchesRow.Statement (.or x y) :=
  (mask_packXY 0x8 x y 0x1).trans rfl

theorem EncodeMatchesRow.and (x : Reg) (y : Reg) : EncodeMatchesRow.Statement (.and x y) :=
  (mask_packXY 0x8 x y 0x2).trans rfl

theorem EncodeMatchesRow.xor (x : Reg) (y : Reg) : EncodeMatchesRow.Statement (.xor x y) :=
  (mask_packXY 0x8 x y 0x3).trans rfl

theorem EncodeMatchesRow.addReg (x : Reg) (y : Reg) : EncodeMatchesRow.Statement (.addReg x y) :=
  (mask_packXY 0x8 x y 0x4).trans rfl

theorem EncodeMatchesRow.sub (x : Reg) (y : Reg) : EncodeMatchesRow.Statement (.sub x y) :=
  (mask_packXY 0x8 x y 0x5).trans rfl

theorem EncodeMatchesRow.shr (x : Reg) (y : Reg) : EncodeMatchesRow.Statement (.shr x y) :=
  (mask_packXY 0x8 x y 0x6).trans rfl

theorem EncodeMatchesRow.subn (x : Reg) (y : Reg) : EncodeMatchesRow.Statement (.subn x y) :=
  (mask_packXY 0x8 x y 0x7).trans rfl

theorem EncodeMatchesRow.shl (x : Reg) (y : Reg) : EncodeMatchesRow.Statement (.shl x y) :=
  (mask_packXY 0x8 x y 0xE).trans rfl

theorem EncodeMatchesRow.sneReg (x : Reg) (y : Reg) : EncodeMatchesRow.Statement (.sneReg x y) :=
  (mask_packXY 0x9 x y 0x0).trans rfl

theorem EncodeMatchesRow.ldI (nnn : Addr) : EncodeMatchesRow.Statement (.ldI nnn) :=
  (mask_packNNN 0xA nnn).trans rfl

theorem EncodeMatchesRow.jpV0 (nnn : Addr) : EncodeMatchesRow.Statement (.jpV0 nnn) :=
  (mask_packNNN 0xB nnn).trans rfl

theorem EncodeMatchesRow.rnd (x : Reg) (nn : Byte) : EncodeMatchesRow.Statement (.rnd x nn) :=
  (mask_packXNN 0xC x nn).trans rfl

theorem EncodeMatchesRow.drw (x : Reg) (y : Reg) (n : Nibble) : EncodeMatchesRow.Statement (.drw x y n) :=
  (mask_packXYN 0xD x y n).trans rfl

theorem EncodeMatchesRow.skp (x : Reg) : EncodeMatchesRow.Statement (.skp x) :=
  (mask_packXOP 0xE x 0x9E).trans rfl

theorem EncodeMatchesRow.sknp (x : Reg) : EncodeMatchesRow.Statement (.sknp x) :=
  (mask_packXOP 0xE x 0xA1).trans rfl

theorem EncodeMatchesRow.ldVxDt (x : Reg) : EncodeMatchesRow.Statement (.ldVxDt x) :=
  (mask_packXOP 0xF x 0x07).trans rfl

theorem EncodeMatchesRow.ldVxK (x : Reg) : EncodeMatchesRow.Statement (.ldVxK x) :=
  (mask_packXOP 0xF x 0x0A).trans rfl

theorem EncodeMatchesRow.ldDtVx (x : Reg) : EncodeMatchesRow.Statement (.ldDtVx x) :=
  (mask_packXOP 0xF x 0x15).trans rfl

theorem EncodeMatchesRow.ldStVx (x : Reg) : EncodeMatchesRow.Statement (.ldStVx x) :=
  (mask_packXOP 0xF x 0x18).trans rfl

theorem EncodeMatchesRow.addIVx (x : Reg) : EncodeMatchesRow.Statement (.addIVx x) :=
  (mask_packXOP 0xF x 0x1E).trans rfl

theorem EncodeMatchesRow.ldFVx (x : Reg) : EncodeMatchesRow.Statement (.ldFVx x) :=
  (mask_packXOP 0xF x 0x29).trans rfl

theorem EncodeMatchesRow.ldBVx (x : Reg) : EncodeMatchesRow.Statement (.ldBVx x) :=
  (mask_packXOP 0xF x 0x33).trans rfl

theorem EncodeMatchesRow.ldMemVx (x : Reg) : EncodeMatchesRow.Statement (.ldMemVx x) :=
  (mask_packXOP 0xF x 0x55).trans rfl

theorem EncodeMatchesRow.ldVxMem (x : Reg) : EncodeMatchesRow.Statement (.ldVxMem x) :=
  (mask_packXOP 0xF x 0x65).trans rfl

end Sys2Proof.Laws
end

