-- ==== Sys2Proof/Laws/Step.lean ====
section
/-! SUPPORT. The front of a step, one lemma per way it can go (30_encoding.md R74), what a step can
answer, and what `Load` leaves (70_reset_and_hazards.md R243). -/

namespace Sys2Proof.Machine

/-! ## The front of a step -/

theorem fetchOpcode_ok {s : State} (h : s.pc.toNat + 2 ≤ s.cfg.memSize) :
    s.fetchOpcode = some (s.readByte s.pc.toNat ++ s.readByte (s.pc.toNat + 1)) := by
  simp [State.fetchOpcode, State.inRange, h, wordOfBytes]

theorem fetchOpcode_none {s : State} (h : s.cfg.memSize < s.pc.toNat + 2) : s.fetchOpcode = none := by
  have : ¬ s.pc.toNat + 2 ≤ s.cfg.memSize := by omega
  simp [State.fetchOpcode, State.inRange, this]

theorem beginStep_halted {s : State} {kind : FaultKind} (h : s.fault = some kind) :
    beginStep s = .settled (.fault (.halted kind)) := by
  simp only [beginStep, h, haltedOutcome]

theorem beginStep_noFetch {s : State} (h : s.fault = none) (hf : s.fetchOpcode = none) :
    beginStep s = .settled (.next (s.latchFault .memoryOutOfRange s.pc)) := by
  simp only [beginStep, h, hf, raiseFault]

theorem beginStep_unrecognized {s : State} {op : Word} {why : Unrecognized} (h : s.fault = none)
    (hf : s.fetchOpcode = some op) (hd : decode s.cfg.family0Match op = .error why) :
    beginStep s = .settled (.next s.advancePc) := by
  simp only [beginStep, h, hf, hd, execUnrecognized]

theorem beginStep_run {s : State} {op : Word} {i : Instr} (h : s.fault = none)
    (hf : s.fetchOpcode = some op) (hd : decode s.cfg.family0Match op = .ok i) :
    beginStep s = .run i s.advancePc := by
  simp only [beginStep, h, hf, hd]

/-- What a step that answers a next state has done: a fetch fault, a no-op, or an instruction. -/
theorem step_next_cases {s t : State} (h : step s = .next t) :
    s.fault = none ∧
    (t = s.latchFault .memoryOutOfRange s.pc ∨ t = s.advancePc ∨
      ∃ i, exec i s.advancePc = .next t) := by
  cases hk : s.fault with
  | some kind => simp [step, beginStep_halted hk] at h
  | none =>
    refine ⟨rfl, ?_⟩
    cases hf : s.fetchOpcode with
    | none =>
      simp only [step, beginStep_noFetch hk hf] at h
      exact .inl (Host.Outcome.next.inj h).symm
    | some op =>
      cases hd : decode s.cfg.family0Match op with
      | error why =>
        simp only [step, beginStep_unrecognized hk hf hd] at h
        exact .inr (.inl (Host.Outcome.next.inj h).symm)
      | ok i =>
        simp only [step, beginStep_run hk hf hd] at h
        exact .inr (.inr ⟨i, h⟩)

/-- An instruction leaves `FAULT` alone, or leaves the fault of R211 and nothing else. -/
theorem exec_fault_cases {i : Instr} {s t : State} (h : exec i s = .next t) :
    t.fault = s.fault ∨ ∃ kind, t = s.latchFault kind s.pc0 := by
  by_cases hp : Part.fault ∈ touched i
  · cases i <;> simp [touched] at hp
    · rcases execRet_cases h with ⟨-, rfl⟩ | ⟨-, rfl⟩
      · exact .inl rfl
      · exact .inr ⟨_, rfl⟩
    · rcases execCall_cases h with ⟨-, rfl⟩ | ⟨-, rfl⟩
      · exact .inl rfl
      · exact .inr ⟨_, rfl⟩
    · rcases orRaise_ifInRange_cases h with ⟨-, rfl⟩ | ⟨-, rfl⟩
      · exact .inl rfl
      · exact .inr ⟨_, rfl⟩
    · rcases orRaise_ifInRange_cases h with ⟨-, rfl⟩ | ⟨-, rfl⟩
      · exact .inl (onlyChanged_writeBytes s _ _ .fault (by simp))
      · exact .inr ⟨_, rfl⟩
    · rcases orRaise_ifInRange_cases h with ⟨-, rfl⟩ | ⟨-, rfl⟩
      · exact .inl
          (((onlyChanged_writeBytes s _ _).trans (onlyChanged_stepIndex _ _)) .fault (by simp))
      · exact .inr ⟨_, rfl⟩
    · rcases orRaise_ifInRange_cases h with ⟨-, rfl⟩ | ⟨-, rfl⟩
      · exact .inl
          (((onlyChanged_loadRegs s _ _).trans (onlyChanged_stepIndex _ _)) .fault (by simp))
      · exact .inr ⟨_, rfl⟩
  · exact .inl (exec_frame h .fault hp)

/-! ## Load -/

/-- What `writeBytes` makes of memory depends on the configuration and the memory alone. -/
theorem writeBytes_mem_congr {s t : State} (a : Nat) (ws : List Byte) (hc : s.cfg = t.cfg)
    (hm : s.mem = t.mem) : (s.writeBytes a ws).mem = (t.writeBytes a ws).mem := by
  induction ws generalizing s t a with
  | nil => exact hm
  | cons w ws ih => exact ih (a + 1) hc (by simp only [State.writeByte, hc, hm])

/-- `Load` leaves the initial state but for memory and the count of draws (R243). -/
theorem load_eq (s : State) (p : List Byte) :
    s.load p = { initialState s.cfg s.quirks with draws := s.draws, mem := (s.load p).mem } :=
  writeBytes_eq _ _ _

/-- The byte at `a` after `Load` (R243). -/
theorem readByte_load (s : State) (p : List Byte) (a : Nat) :
    (s.load p).readByte a = if s.cfg.entry ≤ a ∧ a < s.cfg.entry + p.length
      then p.getD (a - s.cfg.entry) 0 else resetByte s.cfg a :=
  readByte_writeBytes _ _ _ _

end Sys2Proof.Machine
end

