-- ==== Sys2Proof/Tests/Slice0.lean ====
section
/-! SUPPORT. The model's own tests. Expected results come from spec/: the words from the bit patterns of
opcode_table.json and the rules' Encoding lines, the results from the vectors of 95_test_vectors.md
(named in each comment) and the rules' examples. -/

namespace Sys2Proof.Tests

open Sys2Proof.Machine

/-! ## Ill-formed terms (00_scope.md R10, last column; 70_reset_and_hazards.md R242) -/

theorem test_default_config_wf : defaultConfig.wf := by decide

theorem test_layout_refuses_entry_in_font : ¬ Config.layoutOk { defaultConfig with entry := 79 } := by
  decide

theorem test_layout_refuses_entry_at_end : ¬ Config.layoutOk { defaultConfig with entry := 4096 } := by
  decide

theorem test_layout_refuses_big_memory : ¬ Config.layoutOk { defaultConfig with memSize := 65537 } := by
  decide

theorem test_stack_refuses_depth_0 : ¬ Config.stackOk { defaultConfig with stackDepth := 0 } := by
  decide

theorem test_screen_refuses_narrow : ¬ Config.screenOk { defaultConfig with fbW := 7 } := by decide

theorem test_screen_refuses_flat : ¬ Config.screenOk { defaultConfig with fbH := 0 } := by decide

theorem test_screen_refuses_huge :
    ¬ Config.screenOk { defaultConfig with fbW := 257 } ∧
    ¬ Config.screenOk { defaultConfig with fbH := 257 } := by decide

theorem test_font_refuses_short : ¬ Config.fontOk { defaultConfig with fontData := [0xF0] } := by decide

theorem test_dxy0_refuses_8 : ¬ Config.dxy0Ok { defaultConfig with dxy0Rows := 8 } := by decide

/-- E9: 3584 bytes fit, 3585 do not. -/
theorem test_program_size :
    defaultConfig.programFits (List.replicate 3584 0) ∧
    ¬ defaultConfig.programFits (List.replicate 3585 0) := by
  simp only [Config.programFits, List.length_replicate]
  decide

/-! ## Decoding: each row's bit pattern (opcode_table.json, `encoding`), operand bits chosen by hand -/

theorem test_decode_family0 :
    decode .exact 0b0000000011100000 = .ok .cls ∧ decode .exact 0b0000000011101110 = .ok .ret := by
  decide

theorem test_decode_family1to4 :
    decode .exact 0b0001001000110100 = .ok (.jp 0x234) ∧
    decode .exact 0b0010001100000000 = .ok (.call 0x300) ∧
    decode .exact 0b0011001101000010 = .ok (.seImm 3 0x42) ∧
    decode .exact 0b0100101001000001 = .ok (.sneImm 10 0x41) := by decide

theorem test_decode_family5to7 :
    decode .exact 0b0101000100100000 = .ok (.seReg 1 2) ∧
    decode .exact 0b0110101000000010 = .ok (.ldImm 10 0x02) ∧
    decode .exact 0b0111111100000001 = .ok (.addImm 15 0x01) := by decide

theorem test_decode_family8 :
    decode .exact 0b1000000100100000 = .ok (.ldReg 1 2) ∧
    decode .exact 0b1000000100100001 = .ok (.or 1 2) ∧
    decode .exact 0b1000000100100010 = .ok (.and 1 2) ∧
    decode .exact 0b1000000100100011 = .ok (.xor 1 2) ∧
    decode .exact 0b1000000100100100 = .ok (.addReg 1 2) ∧
    decode .exact 0b1000000100100101 = .ok (.sub 1 2) ∧
    decode .exact 0b1000000100100110 = .ok (.shr 1 2) ∧
    decode .exact 0b1000000100100111 = .ok (.subn 1 2) ∧
    decode .exact 0b1000000100101110 = .ok (.shl 1 2) := by decide

theorem test_decode_family9toD :
    decode .exact 0b1001000100100000 = .ok (.sneReg 1 2) ∧
    decode .exact 0b1010001011110000 = .ok (.ldI 0x2F0) ∧
    decode .exact 0b1011001100000000 = .ok (.jpV0 0x300) ∧
    decode .exact 0b1100001100001111 = .ok (.rnd 3 0x0F) ∧
    decode .exact 0b1101000000010101 = .ok (.drw 0 1 5) := by decide

theorem test_decode_familyE :
    decode .exact 0b1110000110011110 = .ok (.skp 1) ∧
    decode .exact 0b1110000110100001 = .ok (.sknp 1) := by decide

theorem test_decode_familyF :
    decode .exact 0b1111001100000111 = .ok (.ldVxDt 3) ∧
    decode .exact 0b1111001100001010 = .ok (.ldVxK 3) ∧
    decode .exact 0b1111001100010101 = .ok (.ldDtVx 3) ∧
    decode .exact 0b1111001100011000 = .ok (.ldStVx 3) ∧
    decode .exact 0b1111010000011110 = .ok (.addIVx 4) ∧
    decode .exact 0b1111001000101001 = .ok (.ldFVx 2) ∧
    decode .exact 0b1111010100110011 = .ok (.ldBVx 5) ∧
    decode .exact 0b1111001001010101 = .ok (.ldMemVx 2) ∧
    decode .exact 0b1111001001100101 = .ok (.ldVxMem 2) := by decide

/-- V7: words that no row matches. -/
theorem test_decode_rejects :
    decode .exact 0x0123 = .error .family0 ∧ decode .exact 0x01E0 = .error .family0 ∧
    decode .exact 0x5121 = .error .family5 ∧ decode .exact 0x8128 = .error .family8 ∧
    decode .exact 0x812F = .error .family8 ∧ decode .exact 0x9121 = .error .family9 ∧
    decode .exact 0xE19F = .error .familyE ∧ decode .exact 0xF1FF = .error .familyF ∧
    decode .exact 0xF000 = .error .familyF ∧ decode .exact 0xF175 = .error .familyF := by decide

/-- V8: with `FAMILY0_MATCH = low_byte`, `01E0` is `00E0` (R78). -/
theorem test_decode_low_byte :
    decode .lowByte 0x01E0 = .ok .cls ∧ decode .lowByte 0x0FEE = .ok .ret ∧
    decode .lowByte 0x00EF = .error .family0 := by decide

/-- R54: most significant byte first; the bytes after the opcode are left alone. -/
theorem test_decode_bytes :
    decodeBytes .exact [0x6A, 0x02, 0x00] = .ok (.ldImm 10 0x02, [0x00]) ∧
    decodeBytes .exact [0x6A] = .error .tooShort ∧
    decodeTableWord 16 0xF533 = some (.ldBVx 5) ∧ decodeTableWord 16 0xF534 = none := by decide

theorem test_encode :
    encode (.ldImm 10 0x02) = 0x6A02 ∧ encode (.drw 0 1 5) = 0xD015 ∧ encode (.jp 0x234) = 0x1234 ∧
    encodeBytes (.ldBVx 5) = [0xF5, 0x33] := by decide

/-! ## One step on a small state -/

/-- Registers set one after the other. -/
def withRegs (s : State) (l : List (Reg × Byte)) : State := l.foldl (fun t p => t.writeV p.1 p.2) s

/-- The state one step leaves when `w` is the opcode at `PC`. -/
def after (s : State) (w : Nat) : State := applyOp .step (s.withFetchWord 16 w)

/-- The state an instruction leaves. -/
def result (i : Instr) (s : State) : State :=
  match exec i s with
  | .next t => t
  | .fault _ => s
  | .refused _ => s

/-- The start state of the vectors in a mode: registers as listed. -/
def start (q : Quirks) (l : List (Reg × Byte)) : State := withRegs { State.reset with quirks := q } l

/-- V1, A1 (R121). -/
theorem test_ldImm : (after State.reset 0x6A02).readV 10 = 0x02 ∧ (after State.reset 0x6A02).pc = 0x202 ∧
    (after State.reset 0x6FAB).readV 15 = 0xAB := by decide

/-- A2. -/
theorem test_addImm_wraps : (after (start .chip8 [(0, 0xFF), (15, 0x55)]) 0x7001).readV 0 = 0 ∧
    (after (start .chip8 [(0, 0xFF), (15, 0x55)]) 0x7001).readV 15 = 0x55 := by decide

/-- A3. -/
theorem test_ldReg : (after (start .chip8 [(2, 0x33)]) 0x8120).readV 1 = 0x33 := by decide

/-- A4, A5. -/
theorem test_or : (after (start .chip8 [(1, 0x0F), (2, 0xF0), (15, 7)]) 0x8121).readV 15 = 0 ∧
    (after (start .superchip [(1, 0x0F), (2, 0xF0), (15, 7)]) 0x8121).readV 15 = 7 ∧
    (after (start .chip8 [(1, 0x0F), (2, 0xF0), (15, 7)]) 0x8121).readV 1 = 0xFF := by decide

/-- A6, A7. -/
theorem test_or_into_vf : (after (start .chip8 [(15, 0x0F), (2, 0xF0)]) 0x8F21).readV 15 = 0 ∧
    (after (start .xochip [(15, 0x0F), (2, 0xF0)]) 0x8F21).readV 15 = 0xFF := by decide

/-- A8. -/
theorem test_and : (after (start .chip8 [(1, 0x3C), (2, 0x0F)]) 0x8122).readV 1 = 0x0C := by decide

/-- A9 and the example of R126. -/
theorem test_xor : (after (start .chip8 [(1, 0x5A)]) 0x8113).readV 1 = 0 ∧
    (after (start .chip8 [(1, 0x3C), (2, 0x0F)]) 0x8123).readV 1 = 0x33 := by decide

/-- A10, A11. -/
theorem test_addReg : (after (start .chip8 [(1, 0xFF), (2, 1)]) 0x8124).readV 1 = 0 ∧
    (after (start .chip8 [(1, 0xFF), (2, 1)]) 0x8124).readV 15 = 1 ∧
    (after (start .chip8 [(1, 0x7F), (2, 0x80)]) 0x8124).readV 1 = 0xFF ∧
    (after (start .chip8 [(1, 0x7F), (2, 0x80)]) 0x8124).readV 15 = 0 := by decide

/-- A13, A14: the flag is written last, and `VF` is an operand like any other. -/
theorem test_addReg_vf : (after (start .chip8 [(15, 0xFF), (1, 1)]) 0x8F14).readV 15 = 1 ∧
    (after (start .chip8 [(1, 3), (15, 2)]) 0x81F4).readV 1 = 5 ∧
    (after (start .chip8 [(1, 3), (15, 2)]) 0x81F4).readV 15 = 0 := by decide

/-- A16, A17. -/
theorem test_sub : (after (start .chip8 [(1, 3), (2, 5)]) 0x8125).readV 1 = 0xFE ∧
    (after (start .chip8 [(1, 3), (2, 5)]) 0x8125).readV 15 = 0 ∧
    (after (start .chip8 [(1, 7), (2, 7)]) 0x8125).readV 15 = 1 := by decide

/-- A19, A20. -/
theorem test_shr : (after (start .chip8 [(1, 0xFF), (2, 1)]) 0x8126).readV 1 = 0 ∧
    (after (start .chip8 [(1, 0xFF), (2, 1)]) 0x8126).readV 2 = 1 ∧
    (after (start .superchip [(1, 0xFF), (2, 1)]) 0x8126).readV 1 = 0x7F := by decide

/-- The second row of E5: the flags differ although the results do not. -/
theorem test_shr_flag : (after (start .chip8 [(1, 2), (2, 3)]) 0x8126).readV 15 = 1 ∧
    (after (start .superchip [(1, 2), (2, 3)]) 0x8126).readV 15 = 0 := by decide

/-- A22, A23. -/
theorem test_subn : (after (start .chip8 [(1, 3), (2, 5)]) 0x8127).readV 2 = 2 ∧
    (after (start .chip8 [(1, 3), (2, 5)]) 0x8127).readV 1 = 3 ∧
    (after (start .chip8 [(1, 5), (2, 3)]) 0x8127).readV 2 = 0xFE ∧
    (after (start .chip8 [(1, 5), (2, 3)]) 0x8127).readV 15 = 0 := by decide

/-- A24: `SUBN_DEST = VX`. -/
theorem test_subn_vx :
    let s := start .chip8 [(1, 3), (2, 5)]
    let t := after { s with cfg := { s.cfg with subnDest := .vx } } 0x8127
    t.readV 1 = 2 ∧ t.readV 2 = 5 ∧ t.readV 15 = 1 := by decide

/-- A29, A30. -/
theorem test_shl : (after (start .chip8 [(1, 0x81), (2, 0x40)]) 0x812E).readV 1 = 0x80 ∧
    (after (start .xochip [(1, 0x81), (2, 0x40)]) 0x812E).readV 1 = 2 ∧
    (after (start .xochip [(1, 0x81), (2, 0x40)]) 0x812E).readV 15 = 1 := by decide

/-- A32: a mask of 0 gives 0 for every draw, and the draw is counted. -/
theorem test_rnd_mask_0 : (after (start .chip8 [(3, 0xFF)]) 0xC300).draws = 1 := by decide

/-- F1, F2. -/
theorem test_jp : (after State.reset 0x1234).pc = 0x234 ∧ (after State.reset 0x1200).pc = 0x200 := by
  decide

/-- F3, F5: the fault leaves `PC` at the call. -/
theorem test_call :
    (after { State.reset with pc := 0x204 } 0x2300).stackEntry 0 = 0x206 ∧
    (after { State.reset with pc := 0x204 } 0x2300).sp = 1 ∧
    (after { State.reset with pc := 0x204, sp := 12 } 0x2300).fault = some .stackOverflow ∧
    (after { State.reset with pc := 0x204, sp := 12 } 0x2300).pc = 0x204 := by decide

/-- F6, F7. -/
theorem test_ret :
    let s := { State.reset with pc := 0x300, sp := 2, stack := State.reset.stack.set 1 0x456 }
    (after s 0x00EE).pc = 0x456 ∧ (after s 0x00EE).sp = 1 ∧
    (after { s with sp := 0 } 0x00EE).fault = some .stackUnderflow ∧
    (after { s with sp := 0 } 0x00EE).pc = 0x300 := by decide

/-- F8, F9. -/
theorem test_skip_imm : (after (start .chip8 [(3, 0x42)]) 0x3342).pc = 0x204 ∧
    (after (start .chip8 [(3, 0x43)]) 0x3342).pc = 0x202 ∧
    (after (start .chip8 [(3, 0x42)]) 0x4342).pc = 0x202 ∧
    (after (start .chip8 [(3, 0x43)]) 0x4342).pc = 0x204 := by decide

/-- F10, F12. -/
theorem test_skip_reg : (after (start .chip8 [(1, 7), (2, 7)]) 0x5120).pc = 0x204 ∧
    (after (start .chip8 [(1, 7), (2, 8)]) 0x5120).pc = 0x202 ∧
    (after (start .chip8 [(1, 7), (2, 8)]) 0x9120).pc = 0x204 ∧
    (after (start .chip8 [(1, 7), (2, 7)]) 0x9120).pc = 0x202 := by decide

/-- F14, F15. -/
theorem test_jpV0 : (after (start .chip8 [(0, 0x10)]) 0xB300).pc = 0x310 ∧
    (after (start .chip8 [(0, 0xFF)]) 0xBFFF).pc = 0x10FE := by decide

/-- M1, M2. -/
theorem test_index : (after State.reset 0xAFFF).i = 0xFFF ∧
    (after { start .chip8 [(0, 2), (15, 0x33)] with i := 0xFFFF } 0xF01E).i = 1 ∧
    (after { start .chip8 [(0, 2), (15, 0x33)] with i := 0xFFFF } 0xF01E).readV 15 = 0x33 := by decide

/-- M4. -/
theorem test_ldF : (after (start .chip8 [(0, 0x0F)]) 0xF029).i = 0x4B ∧
    (after (start .chip8 [(0, 0xFF)]) 0xF029).i = 0x4FB := by decide

/-- M5, M7. -/
theorem test_bcd :
    let t := after { start .chip8 [(0, 255)] with i := 0x300 } 0xF033
    t.readByte 0x300 = 2 ∧ t.readByte 0x301 = 5 ∧ t.readByte 0x302 = 5 ∧
    (after { start .chip8 [(0, 255)] with i := 0xFFE } 0xF033).fault = some .memoryOutOfRange := by decide

/-- M11, M8. -/
theorem test_dump :
    let t := after { start .superchip [(0, 1), (1, 2), (2, 3)] with i := 0x300 } 0xF255
    t.readByte 0x300 = 1 ∧ t.readByte 0x302 = 3 ∧ t.readByte 0x303 = 0 ∧ t.i = 0x300 ∧
    (after { start .chip8 [(0, 0x77)] with i := 0x300 } 0xF055).i = 0x301 := by decide

/-- M13, and the mode difference of R155. -/
theorem test_load :
    let m : Memory := [(0x400, 0xAA), (0x401, 0xBB)]
    let t := after { start .xochip [(2, 0x99)] with i := 0x400, mem := m } 0xF165
    t.readV 0 = 0xAA ∧ t.readV 1 = 0xBB ∧ t.readV 2 = 0x99 ∧ t.i = 0x400 ∧
    (after { State.reset with i := 0x400, mem := m } 0xF165).i = 0x402 := by decide

/-- D1. -/
theorem test_cls :
    let t := after { State.reset with fb := (blankFb defaultConfig).toggle 3 5 } 0x00E0
    t.pixel 3 5 = false ∧ t.draw = true := by decide

/-- D2: clipped at the right edge. -/
theorem test_drw_clips_right :
    let t := after { start .chip8 [(0, 60)] with i := 0x300, mem := [(0x300, 0xFF)] } 0xD011
    t.pixel 0 60 = true ∧ t.pixel 0 63 = true ∧ t.pixel 0 59 = false ∧ t.pixel 0 0 = false ∧
    t.pixel 1 0 = false ∧ t.readV 15 = 0 := by decide

/-- D3: clipped at the bottom edge. -/
theorem test_drw_clips_bottom :
    let m : Memory := [(0x300, 0x80), (0x301, 0x80), (0x302, 0x80), (0x303, 0x80)]
    let t := after { start .chip8 [(1, 0x1E)] with i := 0x300, mem := m } 0xD014
    t.pixel 30 0 = true ∧ t.pixel 31 0 = true ∧ t.pixel 0 0 = false ∧ t.readV 15 = 0 := by decide

/-- D12: the coordinate is read before the flag is written. -/
theorem test_drw_vf_coordinate :
    let t := after { start .chip8 [(15, 5)] with i := 0x300, mem := [(0x300, 0x80)] } 0xDF11
    t.pixel 0 5 = true ∧ t.readV 15 = 0 := by decide

/-- D6, D7: a collision only where a sprite bit meets an on pixel. -/
theorem test_drw_collision :
    let s := { start .chip8 [] with i := 0x300, mem := [(0x300, 0x80)] }
    (after { s with fb := s.fb.toggle 0 0 } 0xD011).readV 15 = 1 ∧
    (after { s with fb := s.fb.toggle 0 0 } 0xD011).pixel 0 0 = false ∧
    (after { s with fb := s.fb.toggle 0 1 } 0xD011).readV 15 = 0 ∧
    (after { s with fb := s.fb.toggle 0 1 } 0xD011).pixel 0 1 = true := by decide

/-- E3: the second draw takes both pixels off again, and its collisions set `VF`. -/
theorem test_drw_twice :
    let t := after { start .chip8 [] with i := 0x300, mem := [(0x300, 0xC0)] } 0xD011
    t.pixel 0 0 = true ∧ t.pixel 0 1 = true ∧ t.readV 15 = 0 ∧ (result (.drw 0 1 1) t).fb = blankFb defaultConfig ∧
    (result (.drw 0 1 1) t).readV 15 = 1 := by decide

/-- K1, K2. -/
theorem test_skp :
    let s := start .chip8 [(1, 5)]
    (after (s.keyWrite 5 true) 0xE19E).pc = 0x204 ∧ (after s 0xE19E).pc = 0x202 ∧
    (after s 0xE1A1).pc = 0x204 ∧ (after (s.keyWrite 5 true) 0xE1A1).pc = 0x202 := by decide

/-- K3, K4. -/
theorem test_skp_out_of_range :
    let s := (start .chip8 [(1, 0x15)]).keyWrite 5 true
    (after { s with cfg := { s.cfg with keyOor := .lowNibble } } 0xE19E).pc = 0x204 ∧
    (after { s with cfg := { s.cfg with keyOor := .notPressed } } 0xE19E).pc = 0x202 ∧
    (after { s with cfg := { s.cfg with keyOor := .notPressed } } 0xE1A1).pc = 0x204 := by decide

/-- K6, K7. -/
theorem test_timers : (after { State.reset with dt := 0x3C } 0xF307).readV 3 = 0x3C ∧
    (after (start .chip8 [(3, 0x3C)]) 0xF315).dt = 0x3C ∧
    (after (start .chip8 [(3, 2)]) 0xF318).st = 2 := by decide

/-- K8, K9. -/
theorem test_key_wait : (after State.reset 0xF30A).pc = 0x200 ∧
    (let t := after ((State.reset.keyWrite 3 true).keyWrite 9 true) 0xF30A
     t.readV 3 = 3 ∧ t.readKey 3 = false ∧ t.readKey 9 = true ∧ t.pc = 0x202) := by decide

/-- K10. -/
theorem test_key_wait_keeps_latch :
    let s := State.reset.keyWrite 9 true
    let t := after { s with cfg := { s.cfg with fx0aClearsLatch := false } } 0xF30A
    t.readV 3 = 9 ∧ t.readKey 9 = true := by decide

/-- V2, V3, V4, V6. -/
theorem test_fetch_edges : (after { State.reset with pc := 0xFFE } 0x0000).pc = 0x1000 ∧
    (applyOp .step { State.reset with pc := 0x1000 }).fault = some .memoryOutOfRange ∧
    (applyOp .step { State.reset with pc := 0xFFF }).pc = 0xFFF ∧
    stepResult { State.reset with fault := some .stackUnderflow } = .halted := by decide

/-- The formulas of R74 and R100 at the largest `MEM_SIZE` (log 27): a fall-through and a skip. -/
theorem test_pc_wraps :
    let s := { State.reset with cfg := { defaultConfig with memSize := 65536 }, pc := 0xFFFE }
    (after s 0x6A02).pc = 0 ∧ (after s 0x6A02).fault = none ∧ (after s 0x3000).pc = 2 ∧
    (applyOp .step { s with pc := 0xFFFF }).fault = some .memoryOutOfRange := by decide

/-- V5: an odd `PC` is fetched like any other. -/
theorem test_odd_pc : (after { State.reset with pc := 0x201 } 0x1200).pc = 0x200 := by decide

/-- K12, K13, K15. -/
theorem test_decay :
    let s := { State.reset with dt := 2, st := 1 }
    s.decayTimers.dt = 1 ∧ s.decayTimers.st = 0 ∧ s.decayResult = false ∧
    { s with dt := 0, st := 5 }.decayTimers.dt = 0 ∧ { s with st := 5 }.decayResult = true ∧
    { s with fault := some .memoryOutOfRange }.decayTimers.dt = 2 := by decide

/-- R1 of section 2.7: the created machine's memory. -/
theorem test_create :
    (match create defaultConfig (some [0x60, 0x03]) .chip8 with
      | .ok s => decide (s.readByte 0 = 0xF0 ∧ s.readByte 4 = 0xF0 ∧ s.readByte 0x200 = 0x60 ∧
          s.readByte 0x201 = 0x03 ∧ s.readByte 0x202 = 0 ∧ s.pc = 0x200)
      | .error _ => false) = true := by decide

/-- R3 of section 2.7: reset keeps the mode and leaves the halted state. -/
theorem test_reset_keeps_quirks :
    let t := applyOp (.reset [0x60, 0x03])
      { State.reset with quirks := .xochip, fault := some .stackOverflow, dt := 9 }
    t.quirks = .xochip ∧ t.fault = none ∧ t.dt = 0 ∧ t.readByte 0x200 = 0x60 := by decide

/-! ## Witnesses: states and operands that meet the hypotheses of the obligations

Each names its obligation. Where an obligation has several clauses, each clause has a witness, at a boundary
of its range. -/

/-- A state in the default configuration that differs from reset in registers and listed memory only. -/
theorem inv_default {s : State} (hc : s.cfg = defaultConfig) (hm : Memory.wf s.cfg s.mem)
    (hb : ∀ cell ∈ s.mem, cell.1 < s.cfg.memSize) (hsp : s.sp ≤ 12) (hk : s.stack.length = 12)
    (hf : s.fb = blankFb defaultConfig) : s.Inv where
  cfgWf := by rw [hc]; decide
  memWf := hm
  memBound := hb
  spBound := by rw [hc]; exact hsp
  stackSize := by rw [hc]; exact hk
  fbRows := by rw [hc, hf]; decide
  fbCols := by rw [hc, hf]; exact fun row h => by rw [List.eq_of_mem_replicate h]; decide

theorem witness_DecodedWordIsTheOpcode : decode .exact 0x00EE = .ok .ret ∧
    decode .lowByte 0x0FEE = .ok .ret ∧ decode .lowByte 0xFF65 = .ok (.ldVxMem 15) := by decide

theorem witness_StepRunsTheDecodedInstruction :
    let s := { State.reset with pc := 0xFFE, mem := [(0xFFE, 0x6A), (0xFFF, 0x02)] }
    s.fault = none ∧ s.pc.toNat + 2 ≤ s.cfg.memSize ∧
    decode s.cfg.family0Match (s.readByte s.pc.toNat ++ s.readByte (s.pc.toNat + 1)) =
      .ok (.ldImm 10 0x02) := by decide

theorem witness_UnrecognizedOpcodeIsNoOp :
    let s := { State.reset with pc := 0xFFE }
    s.fault = none ∧ s.pc.toNat + 2 ≤ s.cfg.memSize ∧
    decode s.cfg.family0Match (s.readByte s.pc.toNat ++ s.readByte (s.pc.toNat + 1)) =
      .error .family0 := by decide

theorem witness_FetchOutOfRangeFaults :
    let s := { State.reset with pc := 0xFFF }
    s.fault = none ∧ s.cfg.memSize < s.pc.toNat + 2 := by decide

theorem witness_HaltedCoreStands :
    { State.reset with fault := some .stackOverflow }.fault = some .stackOverflow := by decide

/-- 10_state.md R45: the collaborator writes on a running and on a halted core. -/
theorem test_collaborator_writes :
    let s := { State.reset with draw := true }
    let h := { s with fault := some .stackOverflow }
    (applyOp (.keyWrite 15 true) s).readKey 15 = true ∧ (applyOp (.keyWrite 15 true) s).readKey 0 = false ∧
    (applyOp (.keyWrite 15 true) h).readKey 15 = true ∧ (applyOp .drawAck s).draw = false ∧
    (applyOp .drawAck h).draw = false := by decide

theorem witness_RunningStepAlwaysAnswersNext : State.reset.fault = none := by decide

theorem witness_FaultsArePrecise :
    let s := State.reset.withFetchWord 16 0x00EE
    s.fault = none ∧ step s = .next { s with fault := some .stackUnderflow } :=
  ⟨by decide, rfl⟩

theorem witness_FaultConditionsAreExactlyThese :
    let s := { State.reset with i := 0xFFE }
    s.fault = none ∧ (result (.ldBVx 0) s).fault = some .memoryOutOfRange ∧
    (result (.ldMemVx 1) s).fault = none ∧ (result (.ldVxMem 2) s).fault = some .memoryOutOfRange ∧
    (result (.drw 0 0 2) s).fault = none ∧ (result (.drw 0 0 3) s).fault = some .memoryOutOfRange := by
  decide

theorem witness_CallPushesReturnAddress :
    let s := { State.reset with sp := 11 }
    (s.Inv ∧ s.sp ≠ s.cfg.stackDepth) ∧ { State.reset with sp := 12 }.sp = State.reset.cfg.stackDepth :=
  ⟨⟨inv_default rfl (by decide) (by decide) (by decide) (by decide) rfl, by decide⟩, by decide⟩

theorem witness_ReturnPopsTheTopEntry :
    { State.reset with sp := 1 }.sp ≠ 0 ∧ State.reset.sp = 0 := by decide

theorem witness_ReturnUndoesCall :
    let s := { State.reset with pc := 0x204 }
    let t := result (.call 0x300) s
    s.Inv ∧ s.sp ≠ s.cfg.stackDepth ∧ exec (.call 0x300) s = .next t ∧
    t.sp = t.sp ∧ t.stackEntry s.sp = t.stackEntry s.sp :=
  ⟨inv_default rfl (by decide) (by decide) (by decide) (by decide) rfl, by decide, rfl, rfl, rfl⟩

theorem witness_ImmediateSkips :
    State.reset.readV 15 = 0 ∧ State.reset.readV 15 ≠ 0xFF := by decide

theorem witness_RegisterSkips : (1 : Nibble) ≠ 0 ∧ State.reset.readV 0 = State.reset.readV 15 ∧
    (start .chip8 [(15, 1)]).readV 0 ≠ (start .chip8 [(15, 1)]).readV 15 := by decide

theorem witness_BitwiseInstructions : (14 : Reg) ≠ VF ∧ (start .superchip []).quirks ≠ .chip8 := by decide

theorem witness_AddSetsCarry :
    let s := start .chip8 [(14, 0xFF), (1, 1)]
    (14 : Reg) ≠ VF ∧ 255 < (s.readV 14).toNat + (s.readV 1).toNat ∧
    ¬ 255 < (s.readV 14).toNat + (s.readV 0).toNat := by decide

theorem witness_SubtractSetsNoBorrow :
    let s := start .chip8 [(14, 5), (1, 5), (2, 6)]
    (14 : Reg) ≠ VF ∧ (s.readV 1).toNat ≤ (s.readV 14).toNat ∧
    ¬ (s.readV 2).toNat ≤ (s.readV 14).toNat := by decide

theorem witness_ShiftRightByMode :
    (14 : Reg) ≠ VF ∧ ShiftOperand 14 1 (start .chip8 [(14, 2), (1, 3)]) 3 ∧
    ShiftOperand 14 1 (start .xochip [(14, 2), (1, 3)]) 2 := by
  refine ⟨by decide, ⟨fun _ => by decide, fun h => absurd rfl h⟩, ⟨fun h => ?_, fun _ => by decide⟩⟩
  cases h

theorem witness_ShiftLeftByMode :
    (14 : Reg) ≠ VF ∧ ShiftOperand 14 1 (start .chip8 [(14, 0x7F), (1, 0x80)]) 0x80 ∧
    ShiftOperand 14 1 (start .superchip [(14, 0x7F), (1, 0x80)]) 0x7F := by
  refine ⟨by decide, ⟨fun _ => by decide, fun h => absurd rfl h⟩, ⟨fun h => ?_, fun _ => by decide⟩⟩
  cases h

/-- The default configuration with the other value of `SUBN_DEST`. -/
def subnVx : State := { State.reset with cfg := { defaultConfig with subnDest := .vx } }

theorem witness_ReverseSubtractByOption : (2 : Reg) ≠ VF ∧
    (State.reset.cfg.subnDest = .vy → (2 : Reg) = 2) ∧ (State.reset.cfg.subnDest = .vx → (2 : Reg) = 1) ∧
    (subnVx.cfg.subnDest = .vy → (1 : Reg) = 2) ∧ (subnVx.cfg.subnDest = .vx → (1 : Reg) = 1) := by decide

theorem witness_FlagIsWrittenLast : State.reset.quirks = .chip8 ∧ State.reset.cfg.subnDest = .vy ∧
    subnVx.cfg.subnDest = .vx ∧ ShiftOperand VF 1 (start .chip8 [(1, 0x81)]) 0x81 := by
  refine ⟨by decide, by decide, by decide, fun _ => by decide, fun h => absurd rfl h⟩

theorem witness_BcdStoresThreeDigits :
    { State.reset with i := 0xFFD }.i.toNat + 3 ≤ State.reset.cfg.memSize ∧
    State.reset.cfg.memSize < { State.reset with i := 0xFFE }.i.toNat + 3 := by decide

theorem witness_DumpStoresRegisters :
    { State.reset with i := 0xFF0 }.i.toNat + ((15 : Reg).val + 1) ≤ State.reset.cfg.memSize ∧
    State.reset.cfg.memSize < { State.reset with i := 0xFF1 }.i.toNat + ((15 : Reg).val + 1) := by decide

theorem witness_LoadReadsRegisters :
    { State.reset with i := 0xFFF }.i.toNat + ((0 : Reg).val + 1) ≤ State.reset.cfg.memSize ∧
    State.reset.cfg.memSize < { State.reset with i := 0x1000 }.i.toNat + ((0 : Reg).val + 1) := by decide

theorem witness_DumpThenLoadRestoresRegisters :
    let s := { start .chip8 [(0, 7), (2, 9)] with i := 0x300 }
    let t := result (.ldMemVx 2) s
    let u := { State.reset with mem := t.mem, i := s.i }
    s.i.toNat + ((2 : Reg).val + 1) ≤ s.cfg.memSize ∧ exec (.ldMemVx 2) s = .next t ∧
    u.cfg = t.cfg ∧ u.mem = t.mem ∧ u.i = s.i :=
  ⟨by decide, rfl, rfl, rfl, rfl⟩

/-- A 15-row sprite that ends at the top of memory, and the default and the other `DXY0_ROWS`. -/
theorem witness_DrawXorsTheVisibleSprite :
    let s := { State.reset with i := 0xFF1 }
    s.Inv ∧ RowCount s 15 15 ∧ s.i.toNat + 15 ≤ s.cfg.memSize ∧
    RowCount { State.reset with i := 0x1000 } 0 0 ∧ 0x1000 + 0 ≤ State.reset.cfg.memSize ∧
    RowCount { s with cfg := { defaultConfig with dxy0Rows := 16 } } 0 16 ∧
    s.cfg.memSize < s.i.toNat + 16 := by
  refine ⟨inv_default rfl (by decide) (by decide) (by decide) (by decide) rfl, ⟨?_, ?_⟩, by decide,
    ⟨?_, ?_⟩, by decide, ⟨?_, ?_⟩, by decide⟩ <;> decide

/-- One sprite bit at the origin, over an off pixel. -/
theorem witness_DrawingTwiceRestoresTheScreen :
    let s := { State.reset with i := 0x300, mem := [(0x300, 0x80)] }
    let t := result (.drw 0 1 1) s
    s.Inv ∧ RowCount s 1 1 ∧ s.i.toNat + 1 ≤ s.cfg.memSize ∧ exec (.drw 0 1 1) s = .next t ∧
    t.readV 0 = s.readV 0 ∧ t.readV 1 = s.readV 1 :=
  ⟨inv_default rfl (by decide) (by decide) (by decide) (by decide) rfl, ⟨by decide, by decide⟩,
    by decide, rfl, by decide, by decide⟩

/-- The same over an on pixel: the second draw's `VF` is 0 although the sprite has a visible 1 bit. -/
theorem witness_DrawingTwiceFlagAsDerivedInTheSpec :
    let s := { State.reset with i := 0x300, mem := [(0x300, 0x80)], fb := (blankFb defaultConfig).toggle 0 0 }
    let t := result (.drw 0 1 1) s
    exec (.drw 0 1 1) s = .next t ∧ t.fault = none ∧ t.readV 0 = s.readV 0 ∧ t.readV 1 = s.readV 1 ∧
    (result (.drw 0 1 1) t).readV VF = 0 :=
  ⟨rfl, by decide, by decide, by decide, by decide⟩

theorem witness_KeySkipsReadTheLatch :
    ((start .chip8 [(1, 15)]).readV 1).toNat = (15 : Key).val ∧ (State.reset.readV 1).toNat = (0 : Key).val :=
  by decide

theorem witness_KeySkipsBeyondTheKeypad :
    16 ≤ ((start .chip8 [(1, 16)]).readV 1).toNat ∧ 16 ≤ ((start .chip8 [(1, 0xFF)]).readV 1).toNat ∧
    (let c : Config := { defaultConfig with keyOor := .lowNibble }
     let s := { start .chip8 [(1, 0x1F)] with cfg := c }.keyWrite 15 true
     ∀ k : Key, k.val = (s.readV 1).toNat % 16 → true = s.readKey k) := by decide

theorem witness_KeyWaitAcceptsTheLowestKey :
    ((State.reset.keyWrite 0 true).readKey 0 = true ∧
      ∀ j : Key, j < 0 → (State.reset.keyWrite 0 true).readKey j = false) ∧
    ((State.reset.keyWrite 15 true).readKey 15 = true ∧
      ∀ j : Key, j < 15 → (State.reset.keyWrite 15 true).readKey j = false) := by decide

theorem witness_KeyWaitHoldsWithoutAKey :
    let s := State.reset.withFetchWord 16 0xFF0A
    s.fault = none ∧ s.pc.toNat + 2 ≤ s.cfg.memSize ∧
    s.readByte s.pc.toNat ++ s.readByte (s.pc.toNat + 1) = packXNN 0xF 15 0x0A ∧
    (∀ k, s.readKey k = false) := by decide

theorem witness_DecayCountsBothTimersDown : { State.reset with dt := 1, st := 0 }.fault = none := by decide

theorem witness_CreateLoadsTheMachine : defaultConfig.wf ∧
    (List.replicate 3584 (0xFF : Byte)).length ≤ defaultConfig.memSize - defaultConfig.entry :=
  ⟨by decide, by rw [List.length_replicate]; decide⟩

theorem witness_CreateFailsExactlyWhen :
    defaultConfig.memSize - defaultConfig.entry < (List.replicate 3585 (0 : Byte)).length := by
  rw [List.length_replicate]
  decide

theorem witness_ResetKeepsOnlyTheMode :
    let s := { State.reset with quirks := .xochip, fault := some .stackUnderflow }
    (List.replicate 3584 (1 : Byte)).length ≤ s.cfg.memSize - s.cfg.entry ∧
    s.cfg.memSize - s.cfg.entry < (List.replicate 3585 (1 : Byte)).length := by
  refine ⟨?_, ?_⟩ <;> rw [List.length_replicate] <;> decide

theorem witness_StepKeepsInv :
    let s := { State.reset with pc := 0x204 }
    s.Inv ∧ step s = .next { s with pc := 0x206 } :=
  ⟨inv_default rfl (by decide) (by decide) (by decide) (by decide) rfl, rfl⟩

theorem witness_ReachableStatesMeetInv : Reachable (applyOp (.reset [0x00, 0xE0]) State.reset) :=
  .applied _ _ (.created defaultConfig [] .chip8 _ (by decide) rfl)

theorem witness_OnlyTimerInstructionsWriteTimers :
    exec (.ldDtVx 3) (start .chip8 [(3, 9)]) = .next { start .chip8 [(3, 9)] with dt := 9 } := by rfl

theorem witness_SoundTimerIsWriteOnly : (∀ x, Instr.ldVxDt 3 ≠ .ldStVx x) ∧
    exec (.ldVxDt 3) State.reset = .next (result (.ldVxDt 3) State.reset) :=
  ⟨fun _ h => (nomatch h), rfl⟩

theorem witness_OnlyDrawInstructionsTouchTheDisplay :
    exec .cls State.reset = .next { State.reset with draw := true } := by rfl

theorem witness_OnlyTransfersWriteMemory :
    let s := { start .chip8 [(0, 255)] with i := 0x300 }
    exec (.ldBVx 0) s = .next (result (.ldBVx 0) s) ∧
    (result (.ldBVx 0) s).readByte 0x302 ≠ s.readByte 0x302 :=
  ⟨rfl, by decide⟩

theorem witness_OnlyListedInstructionsWriteVF :
    let s := start .chip8 [(1, 0xFF), (2, 1)]
    exec (.addReg 1 2) s = .next (result (.addReg 1 2) s) ∧
    (result (.addReg 1 2) s).readV VF ≠ s.readV VF :=
  ⟨rfl, by decide⟩

theorem witness_OnlyTheirInstructionsReachStackAndKeys :
    exec (.call 0x300) State.reset = .next (result (.call 0x300) State.reset) ∧
    (result (.call 0x300) State.reset).sp ≠ State.reset.sp ∧
    Instr.ldVxK 0 ≠ .ret ∧ (∀ nnn, Instr.ldVxK 0 ≠ .call nnn) ∧
    (let s := State.reset.keyWrite 15 true
     exec (.ldVxK 0) s = .next (result (.ldVxK 0) s) ∧ (result (.ldVxK 0) s).readKey 15 ≠ s.readKey 15) :=
  ⟨rfl, by decide, (nomatch ·), fun _ h => (nomatch h), rfl, by decide⟩

theorem witness_OnlyControlInstructionsRedirectPc :
    exec (.jp 0x300) State.reset = .next (result (.jp 0x300) State.reset) ∧
    (result (.jp 0x300) State.reset).fault = none ∧
    (result (.jp 0x300) State.reset).pc ≠ State.reset.pc :=
  ⟨rfl, by decide, by decide⟩

end Sys2Proof.Tests
end

section
/-! PROOFS. The state family (10_state.md): what create and reset leave, the invariant along every run, and
which instructions reach the timers, the display, `VF`, the call stack and the keypad latches. -/

namespace Sys2Proof.Machine

/-! ## Which instructions touch a part -/

theorem dt_mem_touched (i : Instr) : .dt ∈ touched i ↔ ∃ x, i = .ldDtVx x := by
  cases i <;> simp [touched]

theorem st_mem_touched (i : Instr) : .st ∈ touched i ↔ ∃ x, i = .ldStVx x := by
  cases i <;> simp [touched]

theorem key_mem_touched (i : Instr) : .key ∈ touched i ↔ ∃ x, i = .ldVxK x := by
  cases i <;> simp [touched]

theorem stack_mem_touched (i : Instr) : .stack ∈ touched i ↔ i = .ret ∨ ∃ nnn, i = .call nnn := by
  cases i <;> simp [touched]

theorem fb_mem_touched (i : Instr) : .fb ∈ touched i ↔ i = .cls ∨ ∃ x y n, i = .drw x y n := by
  cases i <;> simp [touched]

theorem draw_mem_touched (i : Instr) : .draw ∈ touched i ↔ i = .cls ∨ ∃ x y n, i = .drw x y n := by
  cases i <;> simp [touched]

theorem cfg_not_mem_touched (i : Instr) : .cfg ∉ touched i := by
  cases i <;> simp [touched]

theorem quirks_not_mem_touched (i : Instr) : .quirks ∉ touched i := by
  cases i <;> simp [touched]

/-- No step changes a part that no instruction touches, nor the front of the step (`PC`, `FAULT`). -/
theorem step_keeps_untouched {p : Part} {s t : State} (hpc : p ≠ .pc) (hfault : p ≠ .fault)
    (hp : ∀ i, p ∉ touched i) (h : step s = .next t) : p.Same s t := by
  obtain ⟨-, rfl | rfl | ⟨i, hi⟩⟩ := step_next_cases h
  · exact onlyChanged_latchFault s _ _ p (by simp [hpc, hfault])
  · exact onlyChanged_setPc s _ p (by simp [hpc])
  · exact ((onlyChanged_setPc s _).trans (exec_frame hi)) p (by simp [hpc, hp i])

/-! ## What an operation leaves -/

theorem applyOp_step_cases (s : State) : applyOp .step s = s ∨ step s = .next (applyOp .step s) := by
  cases h : step s <;> simp [applyOp, h]

theorem applyOp_reset_cases (p : List Byte) (s : State) :
    applyOp (.reset p) s = s ∨ (s.cfg.programFits p ∧ applyOp (.reset p) s = s.load p) := by
  by_cases h : s.cfg.programFits p
  · exact .inr ⟨h, by simp [applyOp, resetTo, h]⟩
  · exact .inl (by simp [applyOp, resetTo, h])

theorem decayTimers_cases (s : State) :
    s.decayTimers = s ∨ s.decayTimers = (s.setDt (countDown s.dt)).setSt (countDown s.st) := by
  cases h : s.fault <;> simp [State.decayTimers, h]

/-- `Load` changes memory alone from the initial state, which keeps the count of draws (R243). -/
theorem onlyChanged_load (s : State) (p : List Byte) :
    OnlyChanged [.mem] { initialState s.cfg s.quirks with draws := s.draws } (s.load p) :=
  onlyChanged_writeBytes _ _ _

theorem create_ok {c : Config} {p : List Byte} (q : Quirks) (h : c.programFits p) :
    create c (some p) q = .ok ((initialState c q).load p) := by
  simp [create, h]

theorem create_ok_cases {c : Config} {p : List Byte} {q : Quirks} {s : State}
    (h : create c (some p) q = .ok s) : c.programFits p ∧ s = (initialState c q).load p := by
  by_cases hp : c.programFits p
  · rw [create_ok q hp] at h
    exact ⟨hp, (Except.ok.inj h).symm⟩
  · simp [create, hp] at h

/-- The font lies below address 80 and every other byte is 0 (R37). -/
theorem resetByte_eq (c : Config) (a : Nat) :
    resetByte c a = if a < 80 then c.fontData.getD a 0 else 0 := by
  simp only [resetByte, Nat.zero_le, true_and, Nat.zero_add, Nat.sub_zero]
  rfl

theorem stackEntry_initialState (c : Config) (q : Quirks) (j : Nat) :
    (initialState c q).stackEntry j = 0 := by
  simp only [State.stackEntry, initialState, List.getD_eq_getElem?_getD, List.getElem?_replicate]
  split <;> rfl

theorem readV_initialState (c : Config) (q : Quirks) (r : Reg) : (initialState c q).readV r = 0 := by
  simp [State.readV, initialState]

theorem readKey_initialState (c : Config) (q : Quirks) (k : Key) :
    (initialState c q).readKey k = false := by
  simp [State.readKey, initialState]

/-! ## Memory of an instruction's next state, as data -/

theorem writeLogic_mem (s : State) (d : Reg) (w : Byte) : (s.writeLogic d w).mem = s.mem := by
  rw [writeLogic_eq]
  split <;> rfl

theorem skipIf_mem (s : State) (b : Bool) : (s.skipIf b).mem = s.mem := by
  rw [skipIf_eq, setPc_mem]

/-- Looking a key up draws a free bit where `KEY_OOR` says so, and does nothing else (R190). -/
theorem afterKeyState_eq (s : State) (w : Byte) :
    s.afterKeyState w = if 16 ≤ w.toNat ∧ s.cfg.keyOor = .draw then s.bumpDraws else s := by
  simp only [State.afterKeyState, ← Nat.not_lt]
  by_cases hw : w.toNat < 16
  · simp [hw]
  · cases h : s.cfg.keyOor <;> simp [hw]

theorem afterKeyState_mem (s : State) (w : Byte) : (s.afterKeyState w).mem = s.mem := by
  rw [afterKeyState_eq]
  split <;> rfl

theorem consumeKey_eq (s : State) (k : Key) :
    s.consumeKey k = if s.cfg.fx0aClearsLatch then s.setKey k false else s := rfl

theorem consumeKey_mem (s : State) (k : Key) : (s.consumeKey k).mem = s.mem := by
  rw [consumeKey_eq]
  split <;> rfl

theorem stepIndex_mem (s : State) (x : Reg) : (s.stepIndex x).mem = s.mem := by
  rw [stepIndex_eq, setI_mem]

theorem loadRegs_mem (s : State) (a : Nat) (rs : List Reg) : (s.loadRegs a rs).mem = s.mem := by
  rw [loadRegs_eq]

/-- An instruction leaves memory as it was, or makes one run of writes inside `MEM_SIZE` (R53, R56). -/
theorem exec_mem_cases {i : Instr} {s t : State} (h : exec i s = .next t) :
    t.mem = s.mem ∨
    ∃ a ws, a + ws.length ≤ s.cfg.memSize ∧ t.mem = (s.writeBytes a ws).mem := by
  cases i with
  | cls | jp | ldImm | addImm | ldReg | addReg | sub | shr | subn | shl | ldI | jpV0 | rnd | ldVxDt
  | ldDtVx | ldStVx | addIVx | ldFVx =>
    obtain rfl := Host.Outcome.next.inj h
    exact .inl rfl
  | seImm | sneImm | seReg | sneReg =>
    obtain rfl := Host.Outcome.next.inj h
    exact .inl (skipIf_mem s _)
  | or | and | xor =>
    obtain rfl := Host.Outcome.next.inj h
    exact .inl (writeLogic_mem s _ _)
  | skp | sknp =>
    obtain rfl := Host.Outcome.next.inj h
    exact .inl ((skipIf_mem _ _).trans (afterKeyState_mem s _))
  | ret => rcases execRet_cases h with ⟨-, rfl⟩ | ⟨-, rfl⟩ <;> exact .inl rfl
  | call => rcases execCall_cases h with ⟨-, rfl⟩ | ⟨-, rfl⟩ <;> exact .inl rfl
  | ldVxK =>
    rcases execLdVxK_cases h with ⟨-, rfl⟩ | ⟨k, -, rfl⟩
    · exact .inl rfl
    · exact .inl (consumeKey_mem _ k)
  | drw => rcases orRaise_ifInRange_cases h with ⟨-, rfl⟩ | ⟨-, rfl⟩ <;> exact .inl rfl
  | ldVxMem =>
    rcases orRaise_ifInRange_cases h with ⟨-, rfl⟩ | ⟨-, rfl⟩
    · exact .inl ((stepIndex_mem _ _).trans (loadRegs_mem s _ _))
    · exact .inl rfl
  | ldBVx =>
    rcases orRaise_ifInRange_cases h with ⟨hr, rfl⟩ | ⟨-, rfl⟩
    · exact .inr ⟨_, _, hr, rfl⟩
    · exact .inl rfl
  | ldMemVx x =>
    rcases orRaise_ifInRange_cases h with ⟨hr, rfl⟩ | ⟨-, rfl⟩
    · exact .inr ⟨_, _, by rwa [List.length_map, regsUpTo_length], stepIndex_mem _ x⟩
    · exact .inl rfl

/-! ## The invariant -/

theorem initialState_inv {c : Config} (q : Quirks) (h : c.wf) : (initialState c q).Inv where
  cfgWf := h
  memWf := ⟨List.Pairwise.nil, nofun⟩
  memBound := nofun
  spBound := Nat.zero_le _
  stackSize := List.length_replicate
  fbRows := (blankFb_shape c).1
  fbCols := (blankFb_shape c).2

/-- The invariant speaks of the configuration, memory, the stack and the framebuffer alone. -/
theorem State.Inv.congr {s t : State} (h : s.Inv) (hcfg : t.cfg = s.cfg) (hmem : t.mem = s.mem)
    (hsp : t.sp = s.sp) (hstack : t.stack = s.stack) (hfb : t.fb = s.fb) : t.Inv where
  cfgWf := hcfg ▸ h.cfgWf
  memWf := by rw [hcfg, hmem]; exact h.memWf
  memBound := by rw [hcfg, hmem]; exact h.memBound
  spBound := by rw [hcfg, hsp]; exact h.spBound
  stackSize := by rw [hcfg, hstack]; exact h.stackSize
  fbRows := by rw [hcfg, hfb]; exact h.fbRows
  fbCols := by rw [hcfg, hfb]; exact h.fbCols

theorem writeBytes_inv {s : State} {a : Nat} {ws : List Byte} (h : s.Inv)
    (hr : a + ws.length ≤ s.cfg.memSize) : (s.writeBytes a ws).Inv := by
  have hwf := writeBytes_wf a ws h.memWf
  have hbound := writeBytes_bound a ws h.memBound hr
  rw [writeBytes_eq]
  exact { h with memWf := hwf, memBound := hbound }

/-- Load of a program that fits gives a state of the invariant, whatever state it starts from (R243). -/
theorem load_inv {s : State} {p : List Byte} (hc : s.cfg.wf) (hp : s.cfg.programFits p) :
    (s.load p).Inv := by
  have ⟨⟨_, hentry, _⟩, _⟩ := hc
  have hinit : ({ initialState s.cfg s.quirks with draws := s.draws } : State).Inv :=
    (initialState_inv s.quirks hc).congr rfl rfl rfl rfl rfl
  refine writeBytes_inv hinit ?_
  show s.cfg.entry + p.length ≤ s.cfg.memSize
  simp only [Config.programFits] at hp
  omega

/-- Push and pop keep `SP` in its range and the stack at its size (R26 to R28). -/
theorem exec_keeps_stack_bounds {i : Instr} {s t : State} (hs : s.Inv) (h : exec i s = .next t) :
    t.sp ≤ s.cfg.stackDepth ∧ t.stack.length = s.cfg.stackDepth := by
  have hsp := hs.spBound
  by_cases ht : .stack ∈ touched i
  · rcases (stack_mem_touched i).mp ht with rfl | ⟨nnn, rfl⟩
    · rcases execRet_cases h with ⟨-, rfl⟩ | ⟨-, rfl⟩
      · exact ⟨(Nat.sub_le _ _).trans hsp, hs.stackSize⟩
      · exact ⟨hsp, hs.stackSize⟩
    · rcases execCall_cases h with ⟨hne, rfl⟩ | ⟨-, rfl⟩
      · exact ⟨Nat.lt_of_le_of_ne hsp hne, List.length_set.trans hs.stackSize⟩
      · exact ⟨hsp, hs.stackSize⟩
  · obtain ⟨h1, h2⟩ := exec_frame h .stack ht
    exact ⟨h1 ▸ hsp, h2 ▸ hs.stackSize⟩

/-- Clearing and drawing keep the framebuffer's shape (R30). -/
theorem exec_keeps_fb_shape {i : Instr} {s t : State}
    (hs : Framebuffer.HasShape s.fb s.cfg.fbH s.cfg.fbW) (h : exec i s = .next t) :
    Framebuffer.HasShape t.fb s.cfg.fbH s.cfg.fbW := by
  by_cases ht : .fb ∈ touched i
  · rcases (fb_mem_touched i).mp ht with rfl | ⟨x, y, n, rfl⟩
    · obtain rfl := Host.Outcome.next.inj h
      exact blankFb_shape s.cfg
    · rcases orRaise_ifInRange_cases h with ⟨-, rfl⟩ | ⟨-, rfl⟩
      · exact blit_shape hs x y _
      · exact hs
  · have hfb : t.fb = s.fb := exec_frame h .fb ht
    exact hfb ▸ hs

/-- Transfers to memory keep its canonical form and its bound (20_memory.md R50, R53). -/
theorem exec_keeps_mem_wf {i : Instr} {s t : State} (hs : s.Inv) (h : exec i s = .next t) :
    Memory.wf s.cfg t.mem ∧ ∀ cell ∈ t.mem, cell.1 < s.cfg.memSize := by
  rcases exec_mem_cases h with hm | ⟨a, ws, hr, hm⟩ <;> rw [hm]
  · exact ⟨hs.memWf, hs.memBound⟩
  · exact ⟨writeBytes_wf a ws hs.memWf, writeBytes_bound a ws hs.memBound hr⟩

theorem exec_keeps_inv {i : Instr} {s t : State} (hs : s.Inv) (h : exec i s = .next t) : t.Inv := by
  have hcfg : t.cfg = s.cfg := exec_frame h .cfg (cfg_not_mem_touched i)
  obtain ⟨hwf, hbound⟩ := exec_keeps_mem_wf hs h
  obtain ⟨hsp, hstack⟩ := exec_keeps_stack_bounds hs h
  obtain ⟨hrows, hcols⟩ := exec_keeps_fb_shape ⟨hs.fbRows, hs.fbCols⟩ h
  rw [← hcfg] at hwf hbound hsp hstack hrows hcols
  exact ⟨hcfg ▸ hs.cfgWf, hwf, hbound, hsp, hstack, hrows, hcols⟩

theorem step_keeps_inv {s t : State} (hs : s.Inv) (h : step s = .next t) : t.Inv := by
  obtain ⟨-, rfl | rfl | ⟨i, hi⟩⟩ := step_next_cases h
  · exact hs.congr rfl rfl rfl rfl rfl
  · exact hs.congr rfl rfl rfl rfl rfl
  · exact exec_keeps_inv (s := s.advancePc) (hs.congr rfl rfl rfl rfl rfl) hi

theorem applyOp_keeps_inv {s : State} (op : Op) (hs : s.Inv) : (applyOp op s).Inv := by
  cases op with
  | step =>
    rcases applyOp_step_cases s with h | h
    · rwa [h]
    · exact step_keeps_inv hs h
  | decayTimers =>
    show s.decayTimers.Inv
    rcases decayTimers_cases s with h | h <;> rw [h]
    · exact hs
    · exact hs.congr rfl rfl rfl rfl rfl
  | keyWrite k b => exact hs.congr rfl rfl rfl rfl rfl
  | drawAck => exact hs.congr rfl rfl rfl rfl rfl
  | reset p =>
    rcases applyOp_reset_cases p s with h | ⟨hp, h⟩ <;> rw [h]
    · exact hs
    · exact load_inv hs.cfgWf hp

/-! ## What no instruction but its own reads -/

/-- The state with other values in what only `2NNN`, `00EE` and no instruction reads: the call stack and
`ST` (10_state.md R26, R29). -/
def State.withUnread (s : State) (l : List Word) (n : Nat) (w : Byte) : State :=
  { s with stack := l, sp := n, st := w }

section
variable (s : State) (l : List Word) (n : Nat) (w : Byte)

theorem skipIf_withUnread (b : Bool) :
    (s.withUnread l n w).skipIf b = (s.skipIf b).withUnread l n w := by
  rw [skipIf_eq, skipIf_eq]
  rfl

theorem writeLogic_withUnread (d : Reg) (b : Byte) :
    (s.withUnread l n w).writeLogic d b = (s.writeLogic d b).withUnread l n w := by
  rw [writeLogic_eq, writeLogic_eq, apply_ite (State.withUnread · l n w)]
  rfl

theorem afterKeyState_withUnread (b : Byte) :
    (s.withUnread l n w).afterKeyState b = (s.afterKeyState b).withUnread l n w := by
  rw [afterKeyState_eq, afterKeyState_eq, apply_ite (State.withUnread · l n w)]
  rfl

theorem consumeKey_withUnread (k : Key) :
    (s.withUnread l n w).consumeKey k = (s.consumeKey k).withUnread l n w := by
  rw [consumeKey_eq, consumeKey_eq, apply_ite (State.withUnread · l n w)]
  rfl

theorem stepIndex_withUnread (x : Reg) :
    (s.withUnread l n w).stepIndex x = (s.stepIndex x).withUnread l n w := by
  rw [stepIndex_eq, stepIndex_eq]
  rfl

theorem writeBytes_withUnread (a : Nat) (ws : List Byte) :
    (s.withUnread l n w).writeBytes a ws = (s.writeBytes a ws).withUnread l n w := by
  induction ws generalizing s a with
  | nil => rfl
  | cons b ws ih => exact ih (s.writeByte a b) (a + 1)

theorem loadRegs_withUnread (a : Nat) (rs : List Reg) :
    (s.withUnread l n w).loadRegs a rs = (s.loadRegs a rs).withUnread l n w := by
  induction rs generalizing s with
  | nil => rfl
  | cons r rs ih => exact ih (s.writeV r (s.readByte (a + r.val)))

/-- An effect behind a range check: the check and the fault read neither. -/
theorem orRaise_ifInRange_withUnread {e t : State} {b : Word} {k : Nat}
    (h : s.orRaise (s.ifInRange b k e) = .next t) :
    (s.withUnread l n w).orRaise ((s.withUnread l n w).ifInRange b k (e.withUnread l n w)) =
      .next (t.withUnread l n w) := by
  rcases orRaise_ifInRange_cases h with ⟨hr, rfl⟩ | ⟨hr, rfl⟩
  · rw [ifInRange_ok (s := s.withUnread l n w) hr, orRaise_ok]
  · rw [ifInRange_error (s := s.withUnread l n w) hr]
    rfl

end

/-- Whatever the call stack and `ST` hold, an instruction other than `2NNN`, `00EE` and `FX18` does the
same to all the rest. -/
theorem exec_withUnread {i : Instr} {s t : State} (l : List Word) (n : Nat) (w : Byte)
    (hstack : .stack ∉ touched i) (hst : .st ∉ touched i) (h : exec i s = .next t) :
    exec i (s.withUnread l n w) = .next (t.withUnread l n w) := by
  cases i with
  | ret | call => simp [touched] at hstack
  | ldStVx => simp [touched] at hst
  | cls | jp | ldImm | addImm | ldReg | addReg | sub | shr | subn | shl | ldI | jpV0 | rnd | ldVxDt
  | ldDtVx | addIVx | ldFVx =>
    obtain rfl := Host.Outcome.next.inj h
    rfl
  | seImm | sneImm | seReg | sneReg =>
    obtain rfl := Host.Outcome.next.inj h
    exact congrArg _ (skipIf_withUnread s l n w _)
  | or | and | xor =>
    obtain rfl := Host.Outcome.next.inj h
    exact congrArg _ (writeLogic_withUnread s l n w _ _)
  | skp x | sknp x =>
    obtain rfl := Host.Outcome.next.inj h
    rw [← skipIf_withUnread, ← afterKeyState_withUnread]
    rfl
  | ldVxK x =>
    have hkey : (s.withUnread l n w).firstKey = s.firstKey := rfl
    rcases execLdVxK_cases h with ⟨hk, rfl⟩ | ⟨k, hk, rfl⟩
    · simp only [exec, execLdVxK, hkey, hk]
      rfl
    · simp only [exec, execLdVxK, hkey, hk, ← consumeKey_withUnread]
      rfl
  | drw => exact orRaise_ifInRange_withUnread s l n w h
  | ldBVx x =>
    have := orRaise_ifInRange_withUnread s l n w h
    rwa [← writeBytes_withUnread] at this
  | ldMemVx x =>
    have := orRaise_ifInRange_withUnread s l n w h
    rwa [← stepIndex_withUnread, ← writeBytes_withUnread] at this
  | ldVxMem x =>
    have := orRaise_ifInRange_withUnread s l n w h
    rwa [← stepIndex_withUnread, ← loadRegs_withUnread] at this

/-! ## Writes of a register -/

/-- A register that a write changed is the register written. -/
theorem eq_of_readV_writeV_ne {s : State} {x r : Reg} {w : Byte}
    (h : (s.writeV x w).readV r ≠ s.readV r) : x = r :=
  by_contra fun hne => h (readV_writeV_ne s w (Ne.symm hne))

/-- A bitwise instruction reaches `VF` in `CHIP8` mode or as its result register (R124). -/
theorem chip8_or_eq_of_readV_writeLogic_ne {s : State} {x : Reg} {w : Byte}
    (h : (s.writeLogic x w).readV VF ≠ s.readV VF) : s.quirks = .chip8 ∨ x = VF := by
  rw [writeLogic_eq] at h
  split at h
  · exact .inl ‹_›
  · exact .inr (eq_of_readV_writeV_ne h)

/-- The last register of all is loaded only by a transfer up to it (R155). -/
theorem eq_of_readV_loadRegs_ne {s : State} {a : Nat} {x : Reg}
    (h : (s.loadRegs a (regsUpTo x)).readV VF ≠ s.readV VF) : x = VF := by
  have hmem : VF ∈ regsUpTo x := by_contra fun hn => h (by rw [readV_loadRegs, if_neg hn])
  exact le_antisymm (Fin.le_last x) ((mem_regsUpTo x VF).mp hmem)

/-! ## The obligations -/

/-- Settles O47: `Load` writes the program over the initial state and nothing else. -/
theorem createLoadsTheMachine : Obligations.CreateLoadsTheMachine := by
  intro c p q hwf hp
  obtain ⟨⟨(hfont : 80 ≤ c.entry), hentry, hmax⟩, -⟩ := hwf
  have hload := onlyChanged_load (initialState c q) p
  have hread : ∀ a, ((initialState c q).load p).readByte a =
      if c.entry ≤ a ∧ a < c.entry + p.length then p.getD (a - c.entry) 0 else resetByte c a :=
    readByte_load (initialState c q) p
  obtain ⟨hsp, hstack⟩ := hload .stack (by simp)
  have hpc : ((initialState c q).load p).pc = BitVec.ofNat 16 c.entry := hload .pc (by simp)
  have hfb : ((initialState c q).load p).fb = blankFb c := hload .fb (by simp)
  refine ⟨_, create_ok q hp, fun a ha => ?_, fun j hj => ?_, fun a ha hout => ?_,
    fun r => (hload .v (by simp) r).trans (readV_initialState c q r), hload .i (by simp), ?_, hsp,
    fun j => ?_, hload .dt (by simp), hload .st (by simp), fun py px => ?_,
    fun k => (hload .key (by simp) k).trans (readKey_initialState c q k), hload .draw (by simp),
    hload .fault (by simp), hload .quirks (by simp), hload .cfg (by simp)⟩
  · rw [hread, if_neg (by omega), resetByte_eq, if_pos ha]
  · rw [hread, if_pos (by omega), Nat.add_sub_cancel_left]
  · rw [hread, if_neg (by omega), resetByte_eq, if_neg (by omega)]
  · rw [hpc, BitVec.toNat_ofNat, Nat.mod_eq_of_lt (by omega)]
  · rw [State.stackEntry, hstack]
    exact stackEntry_initialState c q j
  · rw [State.pixel, hfb, pixel_blankFb]

/-- Settles O52, by induction over the operations that reach the state. -/
theorem reachableStatesMeetInv : Obligations.ReachableStatesMeetInv := by
  intro s hs
  induction hs with
  | created c p q s hc h =>
    obtain ⟨hp, rfl⟩ := create_ok_cases h
    exact load_inv hc hp
  | applied op s _ ih => exact applyOp_keeps_inv op ih

/-- Settles O53: no instruction touches the mode or the configuration, and `Load` keeps both. -/
theorem modeIsImmutable : Obligations.ModeIsImmutable := by
  intro op s
  cases op with
  | step =>
    rcases applyOp_step_cases s with h | h
    · simp [h]
    · exact ⟨step_keeps_untouched (by simp) (by simp) quirks_not_mem_touched h,
        step_keeps_untouched (by simp) (by simp) cfg_not_mem_touched h⟩
  | decayTimers =>
    rcases decayTimers_cases s with h | h <;> simp [applyOp, h]
  | keyWrite k b => exact ⟨rfl, rfl⟩
  | drawAck => exact ⟨rfl, rfl⟩
  | reset p =>
    rcases applyOp_reset_cases p s with h | ⟨-, h⟩ <;> rw [h]
    · exact ⟨rfl, rfl⟩
    · exact ⟨onlyChanged_load s p .quirks (by simp), onlyChanged_load s p .cfg (by simp)⟩

/-- Settles O54: a timer changes only where an instruction touches it. -/
theorem onlyTimerInstructionsWriteTimers : Obligations.OnlyTimerInstructionsWriteTimers := by
  intro i s t h
  rw [← dt_mem_touched, ← st_mem_touched]
  exact ⟨or_iff_not_imp_right.mpr (exec_frame h .dt), or_iff_not_imp_right.mpr (exec_frame h .st)⟩

/-- Settles O56: the display changes only where an instruction touches it, and a draw that faults leaves it. -/
theorem onlyDrawInstructionsTouchTheDisplay : Obligations.OnlyDrawInstructionsTouchTheDisplay := by
  intro i s t h
  by_cases hi : i = .cls ∨ ∃ x y n, i = .drw x y n
  · rcases hi with rfl | ⟨x, y, n, rfl⟩
    · obtain rfl := Host.Outcome.next.inj h
      exact .inr ⟨.inl rfl, rfl⟩
    · rcases orRaise_ifInRange_cases h with ⟨-, rfl⟩ | ⟨-, rfl⟩
      · exact .inr ⟨.inr ⟨x, y, n, rfl⟩, rfl⟩
      · exact .inl ⟨rfl, rfl⟩
  · exact .inl ⟨exec_frame h .fb (mt (fb_mem_touched i).mp hi),
      exec_frame h .draw (mt (draw_mem_touched i).mp hi)⟩

/-- Settles O58, by the instructions that touch the register file: a plain write reaches `VF` only as its
own register, and the others are those of R22. -/
theorem onlyListedInstructionsWriteVF : Obligations.OnlyListedInstructionsWriteVF := by
  intro i s t h hne
  have hv : .v ∈ touched i := by_contra fun hn => hne (exec_frame h .v hn VF)
  cases i with
  | cls | ret | jp | call | seImm | sneImm | seReg | sneReg | ldI | jpV0 | skp | sknp | ldDtVx | ldStVx
  | addIVx | ldFVx | ldBVx | ldMemVx => simp [touched] at hv
  | addReg | sub | shr | subn | shl | drw => simp
  | ldImm | addImm | ldReg | ldVxDt | rnd =>
    obtain rfl := Host.Outcome.next.inj h
    obtain rfl := eq_of_readV_writeV_ne hne
    simp
  | or | and | xor =>
    obtain rfl := Host.Outcome.next.inj h
    rcases chip8_or_eq_of_readV_writeLogic_ne hne with hq | rfl
    · simp [hq]
    · simp
  | ldVxK x =>
    rcases execLdVxK_cases h with ⟨-, rfl⟩ | ⟨k, -, rfl⟩
    · exact absurd rfl hne
    · rw [onlyChanged_consumeKey _ k .v (by simp) VF] at hne
      obtain rfl := eq_of_readV_writeV_ne hne
      simp
  | ldVxMem x =>
    rcases orRaise_ifInRange_cases h with ⟨-, rfl⟩ | ⟨-, rfl⟩
    · rw [onlyChanged_stepIndex _ x .v (by simp) VF] at hne
      obtain rfl := eq_of_readV_loadRegs_ne hne
      simp
    · exact absurd rfl hne

/-- Settles O59: who writes the stack and the latches is the frame of the instruction; that no other
instruction reads the stack is `exec_withUnread`, with `ST` at the value the instruction leaves. -/
theorem onlyTheirInstructionsReachStackAndKeys : Obligations.OnlyTheirInstructionsReachStackAndKeys := by
  refine ⟨fun i s t h => ?_, fun i s t l n hret hcall h => ?_⟩
  · rw [← stack_mem_touched, ← key_mem_touched]
    exact ⟨or_iff_not_imp_right.mpr (exec_frame h .stack), or_iff_not_imp_right.mpr (exec_frame h .key)⟩
  · by_cases hst : .st ∈ touched i
    · obtain ⟨x, rfl⟩ := (st_mem_touched i).mp hst
      obtain rfl := Host.Outcome.next.inj h
      rfl
    · have hstack : .stack ∉ touched i := by simp [stack_mem_touched, hret, hcall]
      have hkept : t.st = s.st := exec_frame h .st hst
      have hsame : t.withUnread l n s.st = { t with stack := l, sp := n } := by rw [← hkept]; rfl
      exact hsame ▸ exec_withUnread l n s.st hstack hst h

/-- Settles O50: `Load` of an empty program writes nothing over the initial state. -/
theorem resetStateIsCreatedAndMeetsInv : Obligations.ResetStateIsCreatedAndMeetsInv :=
  ⟨create_ok .chip8 (Nat.zero_le _), initialState_inv .chip8 (by decide)⟩

end Sys2Proof.Machine
end

section
/-! PROOFS. The memory family (20_memory.md): every step keeps the invariant, and which instructions write
memory, and where. -/

namespace Sys2Proof.Machine

/-! ## Where an instruction writes memory -/

theorem mem_mem_touched (i : Instr) :
    .mem ∈ touched i ↔ (∃ x, i = .ldBVx x) ∨ ∃ x, i = .ldMemVx x := by
  cases i <;> simp [touched]

/-- A run of writes reaches no byte outside its own range (R54). -/
theorem memKeptOutside_writeBytes (s : State) (a : Nat) (ws : List Byte) :
    MemKeptOutside a ws.length s (s.writeBytes a ws) := by
  intro b hb
  rw [readByte_writeBytes, if_neg (by omega)]

/-- `FX33` writes the three bytes from `I` at most (R153); a fault writes none (R53). -/
theorem memKeptOutside_exec_ldBVx {x : Reg} {s t : State} (h : exec (.ldBVx x) s = .next t) :
    MemKeptOutside s.i.toNat 3 s t := by
  rcases orRaise_ifInRange_cases h with ⟨-, rfl⟩ | ⟨-, rfl⟩
  · exact memKeptOutside_writeBytes s _ (bcdDigits (s.readV x))
  · exact fun _ _ => rfl

/-- `FX55` writes the `X + 1` bytes from `I` at most (R154); a fault writes none (R53). -/
theorem memKeptOutside_exec_ldMemVx {x : Reg} {s t : State} (h : exec (.ldMemVx x) s = .next t) :
    MemKeptOutside s.i.toNat (x.val + 1) s t := by
  rcases orRaise_ifInRange_cases h with ⟨-, rfl⟩ | ⟨-, rfl⟩
  · intro b hb
    have hlen : ((regsUpTo x).map s.readV).length = x.val + 1 := by rw [List.length_map, regsUpTo_length]
    exact (onlyChanged_stepIndex _ x .mem (by simp) b).trans
      (memKeptOutside_writeBytes s _ _ b (by rwa [hlen]))
  · exact fun _ _ => rfl

theorem MemKeptOutside.bounds_of_ne {a w b : Nat} {s t : State} (h : MemKeptOutside a w s t)
    (hne : t.readByte b ≠ s.readByte b) : a ≤ b ∧ b < a + w := by
  have := mt (h b) hne
  omega

/-! ## The obligations -/

/-- Settles O51, by `step_keeps_inv`: a step is a latched fault, an advance of `PC` alone, or an instruction
run after it, and an instruction keeps the stack's bounds, the framebuffer's shape and memory's form. -/
theorem stepKeepsInv : Obligations.StepKeepsInv := fun _ _ => step_keeps_inv

/-- Settles O57: only the two transfers touch memory, and each writes inside its own range. -/
theorem onlyTransfersWriteMemory : Obligations.OnlyTransfersWriteMemory := by
  intro i s t a h hne
  have hmem : .mem ∈ touched i := by_contra fun hn => hne (exec_frame h .mem hn a)
  rcases (mem_mem_touched i).mp hmem with ⟨x, rfl⟩ | ⟨x, rfl⟩
  · exact .inl ⟨x, rfl, (memKeptOutside_exec_ldBVx h).bounds_of_ne hne⟩
  · exact .inr ⟨x, rfl, (memKeptOutside_exec_ldMemVx h).bounds_of_ne hne⟩

end Sys2Proof.Machine
end

section
/-! PROOFS. The encoding family (30_encoding.md): decoder and encoder undo each other, which words are
unrecognized, and what the front of a step does with the word it fetches. -/

namespace Sys2Proof

/-! ## The decoder, family by family (R77) -/

/-- The families that look at more of a word than its first nibble. -/
def secondLevelFamilies : List Nibble := [0x0, 0x5, 0x8, 0x9, 0xE, 0xF]

theorem mem_secondLevelFamilies (f : Nibble) : f ∈ secondLevelFamilies ↔
    f = 0x0 ∨ f = 0x5 ∨ f = 0x8 ∨ f = 0x9 ∨ f = 0xE ∨ f = 0xF := by
  simp only [secondLevelFamilies, List.mem_cons, List.not_mem_nil, or_false]

section
variable {m : Family0Match} {op : Word} {f n : Nibble}

theorem decode_family0 (h : fieldF op = 0x0) : decode m op = decodeFamily0 m op := by
  simp [decode, h]

theorem decode_family5 (h : fieldF op = 0x5) : decode m op =
    if fieldN op = 0 then .ok (.seReg (fieldX op) (fieldY op)) else .error .family5 := by
  simp [decode, h]

theorem decode_family8 (h : fieldF op = 0x8) :
    decode m op = decodeFamily8 (fieldX op) (fieldY op) (fieldN op) := by
  simp [decode, h]

theorem decode_family9 (h : fieldF op = 0x9) : decode m op =
    if fieldN op = 0 then .ok (.sneReg (fieldX op) (fieldY op)) else .error .family9 := by
  simp [decode, h]

theorem decode_familyE (h : fieldF op = 0xE) :
    decode m op = decodeFamilyE (fieldX op) (fieldNN op) := by
  simp [decode, h]

theorem decode_familyF (h : fieldF op = 0xF) :
    decode m op = decodeFamilyF (fieldX op) (fieldNN op) := by
  simp [decode, h]

/-! ## A word of a given family from its other fields (R71) -/

theorem packNNN_of_family (h : fieldF op = f) : packNNN f (fieldNNN op) = op := h ▸ packNNN_fields op

theorem packXNN_of_family (h : fieldF op = f) : packXNN f (fieldX op) (fieldNN op) = op :=
  h ▸ packXNN_fields op

theorem packXYN_of_family (h : fieldF op = f) (hn : fieldN op = n) :
    packXYN f (fieldX op) (fieldY op) n = op :=
  h ▸ hn ▸ packXYN_fields op

end

/-- The mask of `low_byte` blanks the `X` nibble of a word and keeps its family and low byte. -/
theorem and_lowByteMask (op : Word) : op &&& 0xF0FF = fieldF op ++ (0#4 ++ fieldNN op) := by
  rw [← Laws.mask_packXOP _ (fieldX op), packXNN_fields]

/-! ## What each family decodes to -/

section
variable {m : Family0Match} {op : Word} {i : Instr} {x y : Reg} {n : Nibble} {nn : Byte}

/-- In a family without a second level every word is the opcode of an instruction. -/
theorem decode_ok_of_firstLevel (m : Family0Match) (h : fieldF op ∉ secondLevelFamilies) :
    ∃ i, decode m op = .ok i ∧ encode i = op := by
  have hcases : ∀ f : Nibble, f ∉ secondLevelFamilies → f = 0x1 ∨ f = 0x2 ∨ f = 0x3 ∨ f = 0x4 ∨
      f = 0x6 ∨ f = 0x7 ∨ f = 0xA ∨ f = 0xB ∨ f = 0xC ∨ f = 0xD := by decide
  rcases hcases _ h with h | h | h | h | h | h | h | h | h | h
  · exact ⟨.jp _, by simp [decode, h], packNNN_of_family h⟩
  · exact ⟨.call _, by simp [decode, h], packNNN_of_family h⟩
  · exact ⟨.seImm _ _, by simp [decode, h], packXNN_of_family h⟩
  · exact ⟨.sneImm _ _, by simp [decode, h], packXNN_of_family h⟩
  · exact ⟨.ldImm _ _, by simp [decode, h], packXNN_of_family h⟩
  · exact ⟨.addImm _ _, by simp [decode, h], packXNN_of_family h⟩
  · exact ⟨.ldI _, by simp [decode, h], packNNN_of_family h⟩
  · exact ⟨.jpV0 _, by simp [decode, h], packNNN_of_family h⟩
  · exact ⟨.rnd _ _, by simp [decode, h], packXNN_of_family h⟩
  · exact ⟨.drw _ _ _, by simp [decode, h], packXYN_of_family h rfl⟩

theorem encode_of_decodeFamily0_exact (h : decodeFamily0 .exact op = .ok i) : encode i = op := by
  simp only [decodeFamily0] at h
  split_ifs at h with hcls hret <;> cases h
  · exact hcls.symm
  · exact hret.symm

theorem encode_of_decodeFamily0_lowByte (hf : fieldF op = 0x0)
    (h : decodeFamily0 .lowByte op = .ok i) : encode i = op &&& 0xF0FF := by
  rw [and_lowByteMask, hf]
  simp only [decodeFamily0] at h
  split_ifs at h with hcls hret <;> cases h
  · rw [hcls]; rfl
  · rw [hret]; rfl

theorem encode_of_decodeFamily8 (h : decodeFamily8 x y n = .ok i) : encode i = packXYN 0x8 x y n := by
  simp only [decodeFamily8] at h
  split at h <;> cases h
  all_goals
    rename_i hn
    exact congrArg (packXYN 0x8 x y) (BitVec.eq_of_toNat_eq hn.symm)

theorem encode_of_decodeFamilyE (h : decodeFamilyE x nn = .ok i) : encode i = packXNN 0xE x nn := by
  simp only [decodeFamilyE] at h
  split_ifs at h with hnn hnn <;> cases h <;> exact congrArg (packXNN 0xE x) hnn.symm

theorem encode_of_decodeFamilyF (h : decodeFamilyF x nn = .ok i) : encode i = packXNN 0xF x nn := by
  simp only [decodeFamilyF] at h
  split_ifs at h <;> cases h <;> exact congrArg (packXNN 0xF x) (Eq.symm ‹_›)

/-- Accepting under a test rejects where the test fails and what comes after it rejects. -/
theorem exists_error_ite {p : Prop} [Decidable p] {r : Except Unrecognized Instr} :
    (∃ why, (if p then .ok i else r) = .error why) ↔ ¬ p ∧ ∃ why, r = .error why := by
  split_ifs with hp <;> simp [hp]

theorem decodeFamily0_exact_error :
    (∃ why, decodeFamily0 .exact op = .error why) ↔ op ≠ 0x00E0 ∧ op ≠ 0x00EE := by
  simp [decodeFamily0, exists_error_ite]

theorem decodeFamily0_lowByte_error :
    (∃ why, decodeFamily0 .lowByte op = .error why) ↔ fieldNN op ≠ 0xE0 ∧ fieldNN op ≠ 0xEE := by
  simp [decodeFamily0, exists_error_ite]

/-- `8XYN` names an instruction for `N` in 0 to 7 and for `N = E` (R87). -/
theorem decodeFamily8_error :
    (∃ why, decodeFamily8 x y n = .error why) ↔ 7 < n.toNat ∧ n ≠ 0xE := by
  have hE : n = 0xE ↔ n.toNat = 14 := BitVec.toNat_inj.symm
  simp only [decodeFamily8, ne_eq, hE]
  split
  case h_10 => -- the catch-all arm
    simp only [imp_false] at *
    simp only [Except.error.injEq, exists_eq', true_iff]
    omega
  all_goals
    simp only [reduceCtorEq, exists_false, false_iff]
    omega

theorem decodeFamilyE_error :
    (∃ why, decodeFamilyE x nn = .error why) ↔ nn ≠ 0x9E ∧ nn ≠ 0xA1 := by
  simp [decodeFamilyE, exists_error_ite]

theorem decodeFamilyF_error : (∃ why, decodeFamilyF x nn = .error why) ↔
    nn ∉ ([0x07, 0x0A, 0x15, 0x18, 0x1E, 0x29, 0x33, 0x55, 0x65] : List Byte) := by
  simp [decodeFamilyF, exists_error_ite]

end

/-- A word that decodes is the opcode of its instruction, but for the `X` nibble under `low_byte`. -/
theorem encode_of_decode {m : Family0Match} {op : Word} {i : Instr} (h : decode m op = .ok i) :
    encode i = op ∨ (m = .lowByte ∧ fieldF op = 0x0 ∧ encode i = op &&& 0xF0FF) := by
  by_cases hf : fieldF op ∈ secondLevelFamilies
  · rcases (mem_secondLevelFamilies _).mp hf with hf | hf | hf | hf | hf | hf
    · rw [decode_family0 hf] at h
      cases m with
      | exact => exact .inl (encode_of_decodeFamily0_exact h)
      | lowByte => exact .inr ⟨rfl, hf, encode_of_decodeFamily0_lowByte hf h⟩
    · rw [decode_family5 hf] at h
      split_ifs at h with hn
      cases h
      exact .inl (packXYN_of_family hf hn)
    · rw [decode_family8 hf] at h
      exact .inl ((encode_of_decodeFamily8 h).trans (packXYN_of_family hf rfl))
    · rw [decode_family9 hf] at h
      split_ifs at h with hn
      cases h
      exact .inl (packXYN_of_family hf hn)
    · rw [decode_familyE hf] at h
      exact .inl ((encode_of_decodeFamilyE h).trans (packXNN_of_family hf))
    · rw [decode_familyF hf] at h
      exact .inl ((encode_of_decodeFamilyF h).trans (packXNN_of_family hf))
  · obtain ⟨j, hj, henc⟩ := decode_ok_of_firstLevel m hf
    obtain rfl := Except.ok.inj (hj.symm.trans h)
    exact .inl henc

/-! ## The obligations on words -/

/-- Settles O1: the decoder reads back the fields each format packs, and the second level of a family finds
the fixed nibble or byte the format put there. -/
theorem decodeOfEncodeIsIdentity : Obligations.DecodeOfEncodeIsIdentity := by
  intro m i
  cases i with
  | cls | ret => cases m <;> rfl
  | jp | call | ldI | jpV0 => simp [encode, decode]
  | seImm | sneImm | ldImm | addImm | rnd => simp [encode, decode]
  | drw => simp [encode, decode]
  | seReg => simp [encode, decode_family5]
  | sneReg => simp [encode, decode_family9]
  | ldReg | or | and | xor | addReg | sub | shr | subn | shl =>
    simp [encode, decode_family8, decodeFamily8]
  | skp | sknp => simp [encode, decode_familyE, decodeFamilyE]
  | ldVxDt | ldVxK | ldDtVx | ldStVx | addIVx | ldFVx | ldBVx | ldMemVx | ldVxMem =>
    simp [encode, decode_familyF, decodeFamilyF]

/-- Settles O2, by `encode_of_decode`. -/
theorem decodedWordIsTheOpcode : Obligations.DecodedWordIsTheOpcode := by
  refine ⟨fun op i h => ?_, fun op i h => ?_⟩
  · rcases encode_of_decode h with henc | ⟨hm, -⟩
    · exact henc
    · cases hm
  · exact (encode_of_decode h).imp_right And.right

/-- Settles O3: a family without a second level rejects nothing, and each other family has its own line. -/
theorem unrecognizedWordsAreExactlyThese : Obligations.UnrecognizedWordsAreExactlyThese := by
  intro m op
  by_cases hf : fieldF op ∈ secondLevelFamilies
  · rcases (mem_secondLevelFamilies _).mp hf with hf | hf | hf | hf | hf | hf
    · rw [decode_family0 hf]
      cases m with
      | exact => simp [hf, decodeFamily0_exact_error]
      | lowByte => simp [hf, decodeFamily0_lowByte_error]
    · rw [decode_family5 hf, exists_error_ite]
      simp [hf]
    · rw [decode_family8 hf, decodeFamily8_error]
      simp [hf]
    · rw [decode_family9 hf, exists_error_ite]
      simp [hf]
    · rw [decode_familyE hf, decodeFamilyE_error]
      simp [hf]
    · rw [decode_familyF hf, decodeFamilyF_error]
      simp [hf]
  · obtain ⟨i, hi, -⟩ := decode_ok_of_firstLevel m hf
    rw [mem_secondLevelFamilies] at hf
    exact iff_of_false (by simp [hi]) (by tauto)

/-- Settles O4: each word is a fixed one, so its decoding is computed. -/
theorem sampleWordsDecode : Obligations.SampleWordsDecode := by
  refine ⟨?_, ?_, ?_, ?_, ?_, ?_⟩ <;> rfl

end Sys2Proof

namespace Sys2Proof.Machine

/-! ## What a running step answers (R74) -/

theorem step_of_run {s t : State} {i : Instr} (h : beginStep s = .run i t) : step s = exec i t := by
  simp only [step, h]

theorem step_of_settled {s : State} {o : Outcome} (h : beginStep s = .settled o) : step s = o := by
  simp only [step, h]

/-- The two answers of an instruction's tail are both next states (60_exceptions.md R211, log 1). -/
theorem orRaise_next (s : State) (r : Except FaultKind State) : ∃ t, s.orRaise r = .next t := by
  cases r with
  | ok t => exact ⟨t, orRaise_ok s t⟩
  | error kind => exact ⟨_, orRaise_error s kind⟩

/-- Every instruction answers a next state, in every state. -/
theorem exec_next (i : Instr) (s : State) : ∃ t, exec i s = .next t := by
  cases i with
  | ret | call | drw | ldBVx | ldMemVx | ldVxMem => exact orRaise_next s _
  | ldVxK x =>
    simp only [exec, execLdVxK]
    split <;> exact ⟨_, rfl⟩
  | cls | jp | seImm | sneImm | seReg | ldImm | addImm | ldReg | or | and | xor | addReg | sub | shr | subn
  | shl | sneReg | ldI | jpV0 | rnd | skp | sknp | ldVxDt | ldDtVx | ldStVx | addIVx | ldFVx =>
    exact ⟨_, rfl⟩

/-- A fault raised at the address `PC` already holds changes `FAULT` alone. -/
theorem onlyChanged_latchFault_pc (s : State) (kind : FaultKind) :
    OnlyChanged [.fault] s (s.latchFault kind s.pc) := by
  intro p hp
  by_cases hpc : p = .pc
  · subst hpc; rfl
  · exact onlyChanged_latchFault s kind s.pc p (by simpa [hpc] using hp)

/-! ## The obligations on steps -/

/-- Settles O6: the front of the step settles it with the advanced state. -/
theorem unrecognizedOpcodeIsNoOp : Obligations.UnrecognizedOpcodeIsNoOp := by
  intro s why hrun hrange hd
  exact ⟨s.advancePc, step_of_settled (beginStep_unrecognized hrun (fetchOpcode_ok hrange) hd), rfl,
    onlyChanged_setPc s _⟩

/-- Settles O9, along the ways the front of a step can go; where it finds an instruction, `exec_next`. -/
theorem runningStepAlwaysAnswersNext : Obligations.RunningStepAlwaysAnswersNext := by
  intro s hrun
  cases hf : s.fetchOpcode with
  | none => exact ⟨_, step_of_settled (beginStep_noFetch hrun hf)⟩
  | some op =>
    cases hd : decode s.cfg.family0Match op with
    | error why => exact ⟨_, step_of_settled (beginStep_unrecognized hrun hf hd)⟩
    | ok i =>
      rw [step_of_run (beginStep_run hrun hf hd)]
      exact exec_next i s.advancePc

/-- Settles O5: the front of the step finds the instruction in the advanced state. -/
theorem stepRunsTheDecodedInstruction : Obligations.StepRunsTheDecodedInstruction := by
  intro s i hrun hrange hd
  exact step_of_run (beginStep_run hrun (fetchOpcode_ok hrange) hd)

/-- Settles O7: the front of the step settles it with the fault latched at the `PC` it fetched from. -/
theorem fetchOutOfRangeFaults : Obligations.FetchOutOfRangeFaults := by
  intro s hrun hrange
  exact ⟨_, step_of_settled (beginStep_noFetch hrun (fetchOpcode_none hrange)), rfl,
    onlyChanged_latchFault_pc s _⟩

end Sys2Proof.Machine
end

section
/-! PROOFS. The control family (40_flow.md): jumps, call and return, skips, and that without a fault nothing
else moves `PC` from the next instruction. -/

namespace Sys2Proof.Machine

/-! ## Call and return (R101, R103) -/

theorem exec_call_of_room (nnn : Addr) {s : State} (h : s.sp ≠ s.cfg.stackDepth) :
    exec (.call nnn) s =
      .next (State.setPc { s with stack := s.stack.set s.sp s.pc, sp := s.sp + 1 } (zextAddr nnn)) := by
  rw [exec, execCall, push_ok s.pc h]
  rfl

theorem exec_call_of_full (nnn : Addr) {s : State} (h : s.sp = s.cfg.stackDepth) :
    exec (.call nnn) s = .next (s.latchFault .stackOverflow s.pc0) := by
  rw [exec, execCall, push_full s.pc h]
  rfl

theorem exec_ret_of_entry {s : State} (h : s.sp ≠ 0) :
    exec .ret s = .next (State.setPc { s with sp := s.sp - 1 } (s.stackEntry (s.sp - 1))) := by
  rw [exec, execRet, pop_ok h]
  rfl

theorem exec_ret_of_empty {s : State} (h : s.sp = 0) :
    exec .ret s = .next (s.latchFault .stackUnderflow s.pc0) := by
  rw [exec, execRet, pop_empty h]
  rfl

/-- An instruction that answers the latched fault of R211 faults as the statements say it. -/
theorem faultsWith_of_exec {i : Instr} {kind : FaultKind} {s : State}
    (h : exec i s = .next (s.latchFault kind s.pc0)) : FaultsWith i kind s :=
  ⟨_, h, rfl, rfl, onlyChanged_latchFault s kind _⟩

/-- With room on the stack, `SP` names one of its entries (10_state.md R26). -/
theorem State.Inv.sp_lt_stack_length {s : State} (hs : s.Inv) (h : s.sp ≠ s.cfg.stackDepth) :
    s.sp < s.stack.length :=
  hs.stackSize ▸ Nat.lt_of_le_of_ne hs.spBound h

theorem stackEntry_set_self {s : State} {j : Nat} (w : Word) (n : Nat) (h : j < s.stack.length) :
    State.stackEntry { s with stack := s.stack.set j w, sp := n } j = w := by
  simp [State.stackEntry, h]

theorem stackEntry_set_ne (s : State) {j k : Nat} (w : Word) (n : Nat) (h : k ≠ j) :
    State.stackEntry { s with stack := s.stack.set j w, sp := n } k = s.stackEntry k := by
  simp [State.stackEntry, List.getElem?_set_ne h.symm]

/-! ## Jumps and skips (R100, R108) -/

/-- The target of `BNNN` needs no wrap: 12 bits and 8 bits add within 16. -/
theorem zextAddr_add_zextByte_toNat (nnn : Addr) (w : Byte) :
    (zextAddr nnn + zextByte w).toNat = nnn.toNat + w.toNat := by
  have hn := nnn.isLt
  have hw := w.isLt
  rw [BitVec.toNat_add, zextAddr_toNat, zextByte_toNat]
  omega

/-- What a skip leaves where its test is known to hold under `p` and to fail under `q`. -/
theorem skipIf_outcome (s : State) {b : Bool} {p q : Prop} (hp : p → b = true) (hq : q → b = false) :
    (p → (s.skipIf b).pc = s.pc + 2) ∧ (q → (s.skipIf b).pc = s.pc) ∧
      OnlyChanged [.pc] s (s.skipIf b) := by
  refine ⟨fun h => ?_, fun h => ?_, onlyChanged_skipIf s b⟩
  · rw [hp h, skipIf_eq, setPc_pc, if_pos rfl]
  · rw [hq h, skipIf_eq, setPc_pc, if_neg Bool.false_ne_true]

/-- An effect behind a range check that keeps `PC` moves it only by faulting (20_memory.md R53). -/
theorem pc_eq_of_orRaise_ifInRange {ps : List Part} {s t u : State} {b : Word} {w : Nat}
    (h : s.orRaise (s.ifInRange b w t) = .next u) (ht : OnlyChanged ps s t) (hps : .pc ∉ ps)
    (hrun : u.fault = none) : u.pc = s.pc := by
  rcases orRaise_ifInRange_cases h with ⟨-, rfl⟩ | ⟨-, rfl⟩
  · exact ht .pc hps
  · exact absurd hrun (Option.some_ne_none _)

/-! ## The obligations -/

/-- Settles O12: the target of each jump, read as a number. -/
theorem jumpsWritePc : Obligations.JumpsWritePc :=
  ⟨fun m nnn => decodeOfEncodeIsIdentity m (.jp nnn), fun m nnn => decodeOfEncodeIsIdentity m (.jpV0 nnn),
    fun nnn s => ⟨_, rfl, zextAddr_toNat nnn, onlyChanged_setPc s _⟩,
    fun nnn s => ⟨_, rfl, zextAddr_add_zextByte_toNat nnn (s.readV 0), onlyChanged_setPc s _⟩⟩

/-- Settles O13: a push with room writes the one entry at `SP`, which the invariant puts on the stack. -/
theorem callPushesReturnAddress : Obligations.CallPushesReturnAddress := by
  refine ⟨fun m nnn => decodeOfEncodeIsIdentity m (.call nnn), fun nnn s hs hroom => ?_,
    fun nnn s hfull => faultsWith_of_exec (exec_call_of_full nnn hfull)⟩
  exact ⟨_, exec_call_of_room nnn hroom, zextAddr_toNat nnn, rfl,
    stackEntry_set_self s.pc (s.sp + 1) (hs.sp_lt_stack_length hroom),
    fun j hj => stackEntry_set_ne s s.pc (s.sp + 1) hj,
    ((onlyChanged_stack s _ _).trans (onlyChanged_setPc _ _)).mono (by simp)⟩

/-- Settles O14: a pop lowers `SP` alone, and `PC` takes the entry it uncovers. -/
theorem returnPopsTheTopEntry : Obligations.ReturnPopsTheTopEntry := by
  refine ⟨fun m => decodeOfEncodeIsIdentity m .ret, fun x => ?_, fun s hentry => ?_,
    fun s hempty => faultsWith_of_exec (exec_ret_of_empty hempty)⟩
  · rw [decode_family0 (fieldF_packXNN _ _ _)]
    simp [decodeFamily0]
  · exact ⟨_, exec_ret_of_entry hentry, rfl, rfl, rfl,
      ((onlyChanged_stack s s.stack _).trans (onlyChanged_setPc _ _)).mono (by simp)⟩

/-- Settles O15: the entry the call pushed (O13) is the one on top at the callee's depth, which the return
pops (O14). -/
theorem returnUndoesCall : Obligations.ReturnUndoesCall := by
  intro nnn s t u hs hroom hcall hsp hentry
  obtain ⟨-, hpush, -⟩ := callPushesReturnAddress
  obtain ⟨-, -, hpop, -⟩ := returnPopsTheTopEntry
  obtain ⟨t', ht', -, htsp, htop, -⟩ := hpush nnn s hs hroom
  obtain rfl := Host.Outcome.next.inj (hcall.symm.trans ht')
  have hdepth : u.sp = s.sp + 1 := hsp.trans htsp
  obtain ⟨w, hw, hpc, hwsp, -⟩ := hpop u (hdepth ▸ Nat.succ_ne_zero _)
  rw [hdepth, Nat.add_sub_cancel] at hpc hwsp
  exact ⟨w, hw, hpc.trans (hentry.trans htop), hwsp⟩

/-- Settles O16: a skip by its test, which is an equality of bytes. -/
theorem immediateSkips : Obligations.ImmediateSkips :=
  ⟨fun m x nn => decodeOfEncodeIsIdentity m (.seImm x nn),
    fun m x nn => decodeOfEncodeIsIdentity m (.sneImm x nn),
    fun _ _ s => ⟨_, rfl, skipIf_outcome s beq_iff_eq.mpr beq_eq_false_iff_ne.mpr⟩,
    fun _ _ s => ⟨_, rfl, skipIf_outcome s bne_iff_ne.mpr bne_eq_false_iff_eq.mpr⟩⟩

/-- Settles O17: a skip by its test, and the second level of families 5 and 9. -/
theorem registerSkips : Obligations.RegisterSkips := by
  refine ⟨fun m x y => decodeOfEncodeIsIdentity m (.seReg x y), fun m x y n hn => ?_,
    fun m x y => decodeOfEncodeIsIdentity m (.sneReg x y), fun m x y n hn => ?_,
    fun _ _ s => ⟨_, rfl, skipIf_outcome s beq_iff_eq.mpr beq_eq_false_iff_ne.mpr⟩,
    fun _ _ s => ⟨_, rfl, skipIf_outcome s bne_iff_ne.mpr bne_eq_false_iff_eq.mpr⟩⟩
  · rw [decode_family5 (fieldF_packXYN _ _ _ _), fieldN_packXYN, if_neg hn]
  · rw [decode_family9 (fieldF_packXYN _ _ _ _), fieldN_packXYN, if_neg hn]

/-- Settles O60: an instruction that moves `PC` touches it; of those that do, the ones not listed keep it
behind their range check, so they move it only by faulting. -/
theorem onlyControlInstructionsRedirectPc : Obligations.OnlyControlInstructionsRedirectPc := by
  intro i s t h hrun hne
  have hpc : .pc ∈ touched i := by_contra fun hn => hne (exec_frame h .pc hn)
  cases i with
  | ret | jp | call | jpV0 | seImm | sneImm | seReg | sneReg | skp | sknp | ldVxK => simp
  | cls | ldImm | addImm | ldReg | or | and | xor | addReg | sub | shr | subn | shl | ldI | rnd | ldVxDt
  | ldDtVx | ldStVx | addIVx | ldFVx => simp [touched] at hpc
  | drw => exact absurd (pc_eq_of_orRaise_ifInRange h (onlyChanged_finishDraw s _) (by simp) hrun) hne
  | ldBVx => exact absurd (pc_eq_of_orRaise_ifInRange h (onlyChanged_writeBytes s _ _) (by simp) hrun) hne
  | ldMemVx =>
    exact absurd (pc_eq_of_orRaise_ifInRange h
      ((onlyChanged_writeBytes s _ _).trans (onlyChanged_stepIndex _ _)) (by simp) hrun) hne
  | ldVxMem =>
    exact absurd (pc_eq_of_orRaise_ifInRange h
      ((onlyChanged_loadRegs s _ _).trans (onlyChanged_stepIndex _ _)) (by simp) hrun) hne

end Sys2Proof.Machine
end

section
/-! PROOFS. The ALU family (41_alu.md): loads, the 8-bit results with their flag in `VF`, shifts by mode, and
the free draw of `CXNN`. -/

namespace Sys2Proof.Machine

/-! ## Which registers a result write keeps -/

theorem RegsKept.mono {rs qs : List Reg} {s t : State} (h : RegsKept rs s t) (hsub : ∀ r ∈ rs, r ∈ qs) :
    RegsKept qs s t :=
  fun r hr => h r fun hm => hr (hsub r hm)

theorem regsKept_writeV (s : State) (x : Reg) (w : Byte) : RegsKept [x] s (s.writeV x w) :=
  fun _ hr => readV_writeV_ne s w (List.ne_of_not_mem_cons hr)

theorem onlyChanged_writeV (s : State) (x : Reg) (w : Byte) : OnlyChanged [.v] s (s.writeV x w) :=
  onlyChanged_v s _

theorem regsKept_writeWithFlag (s : State) (d : Reg) (w : Byte) (b : Bool) :
    RegsKept [d, VF] s (s.writeWithFlag d w b) := by
  intro r hr
  obtain ⟨hd, hVF⟩ : r ≠ d ∧ r ≠ VF := by simpa using hr
  rw [readV_writeWithFlag, if_neg hVF, if_neg hd]

/-! ## A result and its flag (R120) -/

theorem readV_writeWithFlag_dest (s : State) {d : Reg} (w : Byte) (b : Bool) (hd : d ≠ VF) :
    (s.writeWithFlag d w b).readV d = w := by
  rw [readV_writeWithFlag, if_neg hd, if_pos rfl]

/-- Whatever the destination, `VF` ends holding the flag: it is written last. -/
theorem readV_writeWithFlag_VF (s : State) (d : Reg) (w : Byte) (b : Bool) :
    (s.writeWithFlag d w b).readV VF = flagByte b := by
  rw [readV_writeWithFlag, if_pos rfl]

theorem flagIs_writeWithFlag (s : State) (d : Reg) (w : Byte) {b : Bool} {p : Prop} (hb : b = true ↔ p) :
    FlagIs (s.writeWithFlag d w b) p := by
  rw [FlagIs, readV_writeWithFlag_VF, flagByte_eq_one, flagByte_eq_zero, ← hb, Bool.not_eq_true]
  exact ⟨id, id⟩

/-- What an instruction that writes a result and then its flag leaves, the result register not being `VF`:
`P` is what is known of the result. -/
theorem result_and_flag_of_exec (P : Byte → Prop) {i : Instr} {s : State} {d : Reg} {w : Byte} {b : Bool}
    {p : Prop} (h : exec i s = .next (s.writeWithFlag d w b)) (hd : d ≠ VF) (hw : P w) (hb : b = true ↔ p) :
    ∃ t, exec i s = .next t ∧ P (t.readV d) ∧ FlagIs t p ∧ RegsKept [d, VF] s t ∧ OnlyChanged [.v] s t :=
  ⟨_, h, (readV_writeWithFlag_dest s w b hd).symm ▸ hw, flagIs_writeWithFlag s d w hb,
    regsKept_writeWithFlag s d w b, onlyChanged_writeWithFlag s d w b⟩

/-- With `VF` as the result register, the flag is what remains. -/
theorem flagWins_of_exec {i : Instr} {s : State} {w : Byte} {b : Bool} {p : Prop}
    (h : exec i s = .next (s.writeWithFlag VF w b)) (hb : b = true ↔ p) : FlagWins i p s :=
  ⟨_, h, flagIs_writeWithFlag s VF w hb, (regsKept_writeWithFlag s VF w b).mono (by simp),
    onlyChanged_writeWithFlag s VF w b⟩

/-! ## Bitwise results (R124 to R126) -/

theorem writeLogic_of_chip8 {s : State} (d : Reg) (w : Byte) (h : s.quirks = .chip8) :
    s.writeLogic d w = s.writeWithFlag d w false := by
  rw [writeLogic_eq, if_pos h]

theorem writeLogic_of_not_chip8 {s : State} (d : Reg) (w : Byte) (h : s.quirks ≠ .chip8) :
    s.writeLogic d w = s.writeV d w := by
  rw [writeLogic_eq, if_neg h]

/-- A bitwise result stands unless the flag of `CHIP8` mode overwrites it. -/
theorem logicResult_of_exec {i : Instr} {s : State} {x : Reg} {w : Byte}
    (h : exec i s = .next (s.writeLogic x w)) (hx : x ≠ VF ∨ s.quirks ≠ .chip8) : LogicResult i x w s := by
  refine ⟨_, h, ?_, fun hq => ?_, fun hq => ?_, onlyChanged_writeLogic s x w⟩
  · by_cases hq : s.quirks = .chip8
    · rw [writeLogic_of_chip8 x w hq]
      exact readV_writeWithFlag_dest s w false (hx.resolve_right (not_not_intro hq))
    · rw [writeLogic_of_not_chip8 x w hq, readV_writeV_self]
  · rw [writeLogic_of_chip8 x w hq]
    exact ⟨readV_writeWithFlag_VF s x w false, regsKept_writeWithFlag s x w false⟩
  · rw [writeLogic_of_not_chip8 x w hq]
    exact regsKept_writeV s x w

/-- In `CHIP8` mode a bitwise instruction clears `VF`, its own result register included. -/
theorem flagWins_of_exec_writeLogic {i : Instr} {s : State} {w : Byte} (hq : s.quirks = .chip8)
    (h : exec i s = .next (s.writeLogic VF w)) : FlagWins i False s :=
  flagWins_of_exec (writeLogic_of_chip8 VF w hq ▸ h) (iff_false_intro Bool.false_ne_true)

/-! ## Operands and results as numbers -/

theorem shiftSource_of_shiftOperand {s : State} {x y : Reg} {a : Byte} (h : ShiftOperand x y s a) :
    s.shiftSource x y = a := by
  obtain ⟨hchip8, hother⟩ := h
  rw [shiftSource_eq]
  split
  · exact (hchip8 ‹_›).symm
  · exact (hother ‹_›).symm

/-- The destination of `8XY7` is the register that `SUBN_DEST` names (R130). -/
theorem subnDestReg_of_option {s : State} {x y d : Reg} (hy : s.cfg.subnDest = .vy → d = y)
    (hx : s.cfg.subnDest = .vx → d = x) : s.subnDestReg x y = d := by
  cases h : s.cfg.subnDest with
  | vy => rw [subnDestReg_eq, if_pos h, hy h]
  | vx => rw [subnDestReg_eq, if_neg (by simp [h]), hx h]

/-- A difference of bytes is the difference of their numbers, modulo 256. -/
theorem byte_sub_toNat (a b : Byte) : ((a - b).toNat : Int) = (a.toNat - b.toNat : Int) % 256 := by
  have ha := a.isLt
  have hb := b.isLt
  rw [BitVec.toNat_sub]
  omega

theorem byte_shiftRight_one_toNat (a : Byte) : (a >>> 1).toNat = a.toNat / 2 := by
  rw [BitVec.toNat_ushiftRight, Nat.shiftRight_one]

theorem byte_shiftLeft_one_toNat (a : Byte) : (a <<< 1).toNat = 2 * a.toNat % 256 := by
  rw [BitVec.toNat_shiftLeft, Nat.shiftLeft_eq, Nat.mul_comm]

theorem exec_shr_of_shiftOperand {s : State} {x y : Reg} {a : Byte} (h : ShiftOperand x y s a) :
    exec (.shr x y) s = .next (s.writeWithFlag x (a >>> 1) (shiftedOutRight a)) := by
  rw [exec, execShr, shiftSource_of_shiftOperand h]

theorem exec_shl_of_shiftOperand {s : State} {x y : Reg} {a : Byte} (h : ShiftOperand x y s a) :
    exec (.shl x y) s = .next (s.writeWithFlag x (a <<< 1) (shiftedOutLeft a)) := by
  rw [exec, execShl, shiftSource_of_shiftOperand h]

theorem exec_subn_of_option {s : State} {x y d : Reg} (hy : s.cfg.subnDest = .vy → d = y)
    (hx : s.cfg.subnDest = .vx → d = x) :
    exec (.subn x y) s = .next (s.writeWithFlag d (s.readV y - s.readV x)
      (noBorrow (s.readV y) (s.readV x))) := by
  rw [exec, execSubn, subnDestReg_of_option hy hx]

/-! ## The obligations -/

/-- Settles O18: a plain write of the immediate. -/
theorem loadImmediate : Obligations.LoadImmediate :=
  ⟨fun m x nn => decodeOfEncodeIsIdentity m (.ldImm x nn),
    fun x nn s => ⟨_, rfl, readV_writeV_self s x nn, regsKept_writeV s x nn, onlyChanged_writeV s x nn⟩⟩

/-- Settles O19: a plain write of the wrapped sum. -/
theorem addImmediateWrapsWithoutFlag : Obligations.AddImmediateWrapsWithoutFlag := by
  refine ⟨fun m x nn => decodeOfEncodeIsIdentity m (.addImm x nn),
    fun x nn s => ⟨_, rfl, ?_, regsKept_writeV s x _, onlyChanged_writeV s x _⟩⟩
  rw [readV_writeV_self, BitVec.toNat_add]

/-- Settles O20: a plain write of `V[Y]`. -/
theorem registerMove : Obligations.RegisterMove :=
  ⟨fun m x y => decodeOfEncodeIsIdentity m (.ldReg x y),
    fun x _ s => ⟨_, rfl, readV_writeV_self s x _, regsKept_writeV s x _, onlyChanged_writeV s x _⟩⟩

/-- Settles O21: the three instructions differ in their result alone. -/
theorem bitwiseInstructions : Obligations.BitwiseInstructions :=
  ⟨fun m x y => decodeOfEncodeIsIdentity m (.or x y), fun m x y => decodeOfEncodeIsIdentity m (.and x y),
    fun m x y => decodeOfEncodeIsIdentity m (.xor x y),
    fun _ _ _ hx => ⟨logicResult_of_exec rfl hx, logicResult_of_exec rfl hx, logicResult_of_exec rfl hx⟩⟩

/-- Settles O22: result and carry are the low byte and bit 8 of the 9-bit sum. -/
theorem addSetsCarry : Obligations.AddSetsCarry :=
  ⟨fun m x y => decodeOfEncodeIsIdentity m (.addReg x y), fun _ _ _ hx =>
    result_and_flag_of_exec (fun r => r.toNat = _) rfl hx (addResult_toNat _ _) (addCarry_iff _ _)⟩

/-- Settles O23: the difference modulo 256, and no borrow where it needs no wrap. -/
theorem subtractSetsNoBorrow : Obligations.SubtractSetsNoBorrow :=
  ⟨fun m x y => decodeOfEncodeIsIdentity m (.sub x y), fun _ _ _ hx =>
    result_and_flag_of_exec (fun r => (r.toNat : Int) = _) rfl hx (byte_sub_toNat _ _) (noBorrow_iff _ _)⟩

/-- Settles O24: a right shift by one halves the operand, and its remainder is the flag. -/
theorem shiftRightByMode : Obligations.ShiftRightByMode :=
  ⟨fun m x y => decodeOfEncodeIsIdentity m (.shr x y), fun _ _ _ a hx ha =>
    result_and_flag_of_exec (fun r => r.toNat = _) (exec_shr_of_shiftOperand ha) hx
      (byte_shiftRight_one_toNat a) (shiftedOutRight_iff a)⟩

/-- Settles O25: a left shift by one doubles the operand, and the flag says whether that wraps. -/
theorem shiftLeftByMode : Obligations.ShiftLeftByMode :=
  ⟨fun m x y => decodeOfEncodeIsIdentity m (.shl x y), fun _ _ _ a hx ha =>
    result_and_flag_of_exec (fun r => r.toNat = _) (exec_shl_of_shiftOperand ha) hx
      (byte_shiftLeft_one_toNat a) (shiftedOutLeft_iff a)⟩

/-- Settles O26: O23 with the operands exchanged, into the register the option names. -/
theorem reverseSubtractByOption : Obligations.ReverseSubtractByOption :=
  ⟨fun m x y => decodeOfEncodeIsIdentity m (.subn x y), fun _ _ _ _ hd hdy hdx =>
    result_and_flag_of_exec (fun r => (r.toNat : Int) = _) (exec_subn_of_option hdy hdx) hd
      (byte_sub_toNat _ _) (noBorrow_iff _ _)⟩

/-- Settles O27: each flag-writing instruction writes `VF` last, with the flag of O21 to O26. -/
theorem flagIsWrittenLast : Obligations.FlagIsWrittenLast := by
  intro y s
  refine ⟨fun hq => ⟨flagWins_of_exec_writeLogic hq rfl, flagWins_of_exec_writeLogic hq rfl,
      flagWins_of_exec_writeLogic hq rfl⟩,
    flagWins_of_exec rfl (addCarry_iff _ _), flagWins_of_exec rfl (noBorrow_iff _ _),
    fun a ha => ⟨flagWins_of_exec (exec_shr_of_shiftOperand ha) (shiftedOutRight_iff a),
      flagWins_of_exec (exec_shl_of_shiftOperand ha) (shiftedOutLeft_iff a)⟩,
    fun hvx => flagWins_of_exec (exec_subn_of_option ?_ fun _ => rfl) (noBorrow_iff _ _),
    fun hvy => flagWins_of_exec (exec_subn_of_option (fun _ => rfl) ?_) (noBorrow_iff _ _)⟩
  · simp [hvx]
  · simp [hvy]

/-- Settles O28: a plain write of the masked draw, after the draw has been counted. -/
theorem randomIsADrawMasked : Obligations.RandomIsADrawMasked :=
  ⟨fun m x nn => decodeOfEncodeIsIdentity m (.rnd x nn),
    fun x nn s => ⟨_, rfl, readV_writeV_self s.bumpDraws x _, rfl, regsKept_writeV s.bumpDraws x _,
      ((onlyChanged_bumpDraws s).trans (onlyChanged_writeV _ x _)).mono (by simp)⟩⟩

end Sys2Proof.Machine
end

section
/-! PROOFS. The index and transfer family (42_index_memory.md): loads of `I`, and the three memory transfers
behind their range check. -/

namespace Sys2Proof.Machine

/-! ## The new values of `I` as numbers (R151, R152) -/

theorem word_add_zextByte_toNat (i : Word) (w : Byte) :
    (i + zextByte w).toNat = (i.toNat + w.toNat) % 65536 := by
  rw [BitVec.toNat_add, zextByte_toNat]

/-- The offset of a glyph needs no wrap: five times a byte fits in 16 bits. -/
theorem zextByte_mul_glyphBytes_toNat (w : Byte) :
    (zextByte w * BitVec.ofNat 16 Config.glyphBytes).toNat = w.toNat * 5 := by
  have hw := w.isLt
  have hfive : (BitVec.ofNat 16 Config.glyphBytes).toNat = 5 := rfl
  rw [BitVec.toNat_mul, zextByte_toNat, hfive]
  omega

/-! ## An effect behind a range check (20_memory.md R53) -/

theorem orRaise_ifInRange_ok {s t : State} {b : Word} {w : Nat} (h : b.toNat + w ≤ s.cfg.memSize) :
    s.orRaise (s.ifInRange b w t) = .next t := by
  rw [ifInRange_ok h, orRaise_ok]

theorem orRaise_ifInRange_error {s t : State} {b : Word} {w : Nat} (h : s.cfg.memSize < b.toNat + w) :
    s.orRaise (s.ifInRange b w t) = .next (s.latchFault .memoryOutOfRange s.pc0) := by
  rw [ifInRange_error h, orRaise_error]

/-! ## What a transfer leaves -/

theorem readByte_writeBytes_of_lt (s : State) (a : Nat) {ws : List Byte} {k : Nat} (hk : k < ws.length) :
    (s.writeBytes a ws).readByte (a + k) = ws.getD k 0 := by
  rw [readByte_writeBytes, if_pos (by omega), Nat.add_sub_cancel_left]

/-- The decimal digits of a byte as numbers (R153). -/
theorem bcdDigits_toNat (w : Byte) :
    ((bcdDigits w).getD 0 0).toNat = w.toNat / 100 ∧ ((bcdDigits w).getD 1 0).toNat = w.toNat / 10 % 10 ∧
      ((bcdDigits w).getD 2 0).toNat = w.toNat % 10 := by
  simp [bcdDigits]

/-- A dump stores each register up to `X` at its own address (R154). -/
theorem readByte_writeBytes_regsUpTo (s : State) (a : Nat) {x r : Reg} (h : r ≤ x) :
    (s.writeBytes a ((regsUpTo x).map s.readV)).readByte (a + r.val) = s.readV r := by
  have hlen : r.val < ((regsUpTo x).map s.readV).length := by
    rw [List.length_map, regsUpTo_length]
    exact Nat.lt_succ_of_le h
  rw [readByte_writeBytes_of_lt s a hlen, regsUpTo_map_getD x r s.readV h]

/-- The index step after an effect that keeps the mode and `I`: `I` moves in `CHIP8` mode only. -/
theorem stepIndex_i_of_onlyChanged {ps : List Part} {s t : State} (x : Reg) (h : OnlyChanged ps s t)
    (hq : .quirks ∉ ps) (hi : .i ∉ ps) :
    (s.quirks = .chip8 → (t.stepIndex x).i = s.i + BitVec.ofNat 16 (x.val + 1)) ∧
      (s.quirks ≠ .chip8 → (t.stepIndex x).i = s.i) := by
  have hquirks : t.quirks = s.quirks := h .quirks hq
  have hindex : t.i = s.i := h .i hi
  rw [stepIndex_eq, setI_i, hquirks, hindex]
  exact ⟨fun hmode => if_pos hmode, fun hmode => if_neg hmode⟩

theorem readV_stepIndex (s : State) (x r : Reg) : (s.stepIndex x).readV r = s.readV r :=
  onlyChanged_stepIndex s x .v (by simp) r

theorem readByte_stepIndex (s : State) (x : Reg) (a : Nat) : (s.stepIndex x).readByte a = s.readByte a :=
  onlyChanged_stepIndex s x .mem (by simp) a

/-! ## The obligations -/

/-- Settles O29: a plain write of `I`. -/
theorem loadIndex : Obligations.LoadIndex :=
  ⟨fun m nnn => decodeOfEncodeIsIdentity m (.ldI nnn),
    fun nnn s => ⟨_, rfl, zextAddr_toNat nnn, onlyChanged_setI s _⟩⟩

/-- Settles O30: a plain write of `I`, the sum wrapped to 16 bits. -/
theorem addToIndexWraps : Obligations.AddToIndexWraps :=
  ⟨fun m x => decodeOfEncodeIsIdentity m (.addIVx x),
    fun x s => ⟨_, rfl, word_add_zextByte_toNat s.i (s.readV x), onlyChanged_setI s _⟩⟩

/-- Settles O31: a plain write of `I`, the product within 16 bits. -/
theorem fontIndexIsFiveTimes : Obligations.FontIndexIsFiveTimes :=
  ⟨fun m x => decodeOfEncodeIsIdentity m (.ldFVx x),
    fun x s => ⟨_, rfl, zextByte_mul_glyphBytes_toNat (s.readV x), onlyChanged_setI s _⟩⟩

/-- Settles O32: behind the range check, a run of writes of the three digits. -/
theorem bcdStoresThreeDigits : Obligations.BcdStoresThreeDigits := by
  refine ⟨fun m x => decodeOfEncodeIsIdentity m (.ldBVx x), fun x s hrange => ?_,
    fun x s hrange => faultsWith_of_exec (orRaise_ifInRange_error hrange)⟩
  have hexec : exec (.ldBVx x) s = .next _ := orRaise_ifInRange_ok hrange
  have hbyte : ∀ k, k < 3 → (s.writeBytes s.i.toNat (bcdDigits (s.readV x))).readByte (s.i.toNat + k) =
      (bcdDigits (s.readV x)).getD k 0 := fun k hk => readByte_writeBytes_of_lt s s.i.toNat hk
  obtain ⟨hundreds, tens, ones⟩ := bcdDigits_toNat (s.readV x)
  refine ⟨_, hexec, ?_, ?_, ?_, memKeptOutside_exec_ldBVx hexec, onlyChanged_writeBytes s _ _⟩
  · exact (congrArg BitVec.toNat (hbyte 0 (by decide))).trans hundreds
  · exact (congrArg BitVec.toNat (hbyte 1 (by decide))).trans tens
  · exact (congrArg BitVec.toNat (hbyte 2 (by decide))).trans ones

/-- Settles O33: behind the range check, a run of writes of the registers, then the index step. -/
theorem dumpStoresRegisters : Obligations.DumpStoresRegisters := by
  refine ⟨fun m x => decodeOfEncodeIsIdentity m (.ldMemVx x), fun x s hrange => ?_,
    fun x s hrange => faultsWith_of_exec (orRaise_ifInRange_error hrange)⟩
  have hexec : exec (.ldMemVx x) s = .next _ := orRaise_ifInRange_ok hrange
  have hwrite := onlyChanged_writeBytes s s.i.toNat ((regsUpTo x).map s.readV)
  obtain ⟨hchip8, hother⟩ := stepIndex_i_of_onlyChanged x hwrite (by simp) (by simp)
  refine ⟨_, hexec, fun r hr => ?_, memKeptOutside_exec_ldMemVx hexec, hchip8, hother,
    hwrite.trans (onlyChanged_stepIndex _ x)⟩
  rw [readByte_stepIndex, readByte_writeBytes_regsUpTo s _ hr]

/-- Settles O34: behind the range check, each register up to `X` from its own byte, then the index step. -/
theorem loadReadsRegisters : Obligations.LoadReadsRegisters := by
  refine ⟨fun m x => decodeOfEncodeIsIdentity m (.ldVxMem x), fun x s hrange => ?_,
    fun x s hrange => faultsWith_of_exec (orRaise_ifInRange_error hrange)⟩
  have hload := onlyChanged_loadRegs s s.i.toNat (regsUpTo x)
  obtain ⟨hchip8, hother⟩ := stepIndex_i_of_onlyChanged x hload (by simp) (by simp)
  refine ⟨_, orRaise_ifInRange_ok hrange, fun r hr => ?_, fun r hr => ?_, hchip8, hother,
    hload.trans (onlyChanged_stepIndex _ x)⟩
  · rw [readV_stepIndex, readV_loadRegs, if_pos ((mem_regsUpTo x r).mpr hr)]
  · rw [readV_stepIndex, readV_loadRegs, if_neg fun hm => hr.not_ge ((mem_regsUpTo x r).mp hm)]

/-- Settles O35: the reload (O34) reads from the same address the bytes that the dump (O33) stored. -/
theorem dumpThenLoadRestoresRegisters : Obligations.DumpThenLoadRestoresRegisters := by
  intro x s t u hrange hdump hcfg hmem hi
  obtain ⟨-, hstores, -⟩ := dumpStoresRegisters
  obtain ⟨-, hloads, -⟩ := loadReadsRegisters
  obtain ⟨t', ht', hstored, -, -, -, hframe⟩ := hstores x s hrange
  obtain rfl := Host.Outcome.next.inj (hdump.symm.trans ht')
  have hcfg_s : u.cfg = s.cfg := hcfg.trans (hframe .cfg (by simp))
  obtain ⟨w, hw, hloaded, -⟩ := hloads x u (by rw [hcfg_s, hi]; exact hrange)
  refine ⟨w, hw, fun r hr => ?_⟩
  calc w.readV r = u.readByte (u.i.toNat + r.val) := hloaded r hr
    _ = t.readByte (s.i.toNat + r.val) := by rw [hi, readByte_congr hcfg hmem]
    _ = s.readV r := hstored r hr

end Sys2Proof.Machine
end

section
/-! PROOFS. The display family (43_display.md): clearing, the sprite draw pixel by pixel behind its range
check, and drawing the same sprite twice. -/

namespace Sys2Proof.Machine

/-! ## What a draw executes (R173, R175) -/

theorem drawRowCount_of_rowCount {s : State} {n : Nibble} {rows : Nat} (h : RowCount s n rows) :
    s.drawRowCount n = rows := by
  obtain ⟨hzero, hne⟩ := h
  unfold State.drawRowCount
  split
  · exact (hzero ‹_›).symm
  · exact (hne ‹_›).symm

theorem exec_drw_of_inRange {s : State} {n : Nibble} {rows : Nat} (x y : Reg) (hn : RowCount s n rows)
    (h : s.i.toNat + rows ≤ s.cfg.memSize) :
    exec (.drw x y n) s = .next (s.finishDraw (s.blit x y rows)) := by
  rw [exec, execDrw, drawRowCount_of_rowCount hn, orRaise_ifInRange_ok h]

theorem exec_drw_of_outOfRange {s : State} {n : Nibble} {rows : Nat} (x y : Reg) (hn : RowCount s n rows)
    (h : s.cfg.memSize < s.i.toNat + rows) :
    exec (.drw x y n) s = .next (s.latchFault .memoryOutOfRange s.pc0) := by
  rw [exec, execDrw, drawRowCount_of_rowCount hn, orRaise_ifInRange_error h]

/-! ## What a draw leaves -/

/-- `blit_toggles` in the terms of the statements. -/
theorem blit_toggles_spriteCovers {s : State} (hs : s.Inv) (x y : Reg) (rows : Nat) :
    Blit.Toggles ⟨s.fb, false⟩ (s.blit x y rows) (SpriteCovers s x y rows) :=
  blit_toggles ⟨hs.fbRows, hs.fbCols⟩ x y rows

theorem readV_finishDraw_VF (s : State) (b : Blit) : (s.finishDraw b).readV VF = flagByte b.collision :=
  readV_writeV_self (s.setFb b.fb) VF _

theorem regsKept_finishDraw (s : State) (b : Blit) : RegsKept [VF] s (s.finishDraw b) :=
  regsKept_writeV (s.setFb b.fb) VF _

theorem flagIs_of_flagByte {t : State} {b : Bool} {p : Prop} (ht : t.readV VF = flagByte b)
    (hb : b = true ↔ p) : FlagIs t p := by
  rw [FlagIs, ht, flagByte_eq_one, flagByte_eq_zero, ← hb, Bool.not_eq_true]
  exact ⟨id, id⟩

theorem onlyChanged_setFb (s : State) (f : Framebuffer) : OnlyChanged [.fb] s (s.setFb f) := by
  intro p hp
  cases p with
  | fb => exact absurd (List.mem_singleton_self _) hp
  | mem | v | key => exact fun _ => rfl
  | stack => exact ⟨rfl, rfl⟩
  | _ => rfl

/-! ## The same sprite in another state -/

section
variable {ps : List Part} {s t : State} (h : OnlyChanged ps s t)
include h

/-- A change of neither the configuration, `I` nor memory leaves a sprite where its coordinates stand. -/
theorem OnlyChanged.spriteCovers_iff (hparts : ∀ p ∈ [Part.cfg, .i, .mem], p ∉ ps) {x y : Reg}
    (hx : t.readV x = s.readV x) (hy : t.readV y = s.readV y) (rows py px : Nat) :
    SpriteCovers t x y rows py px ↔ SpriteCovers s x y rows py px := by
  have hcfg : t.cfg = s.cfg := h .cfg (hparts _ (by simp))
  have hi : t.i = s.i := h .i (hparts _ (by simp))
  have hmem : ∀ a, t.readByte a = s.readByte a := h .mem (hparts _ (by simp))
  simp only [SpriteCovers, hcfg, hi, hmem, hx, hy]

theorem OnlyChanged.rowCount_iff (hcfg : .cfg ∉ ps) (n : Nibble) (rows : Nat) :
    RowCount t n rows ↔ RowCount s n rows := by
  have hcfg : t.cfg = s.cfg := h .cfg hcfg
  simp only [RowCount, hcfg]

end

/-! ## The obligations -/

/-- Settles O36: the blank framebuffer, and `DRAW`. -/
theorem clearScreen : Obligations.ClearScreen := by
  refine ⟨fun m => decodeOfEncodeIsIdentity m .cls, fun x => ?_, fun s => ?_⟩
  · rw [decode_family0 (fieldF_packXNN _ _ _)]
    simp [decodeFamily0]
  · obtain ⟨hrows, hcols⟩ := blankFb_shape s.cfg
    exact ⟨_, rfl, pixel_blankFb s.cfg, hrows, hcols, rfl,
      ((onlyChanged_setFb s _).trans (onlyChanged_setDraw _ true)).mono (by simp)⟩

/-- Settles O37: behind the range check, the draw of `blit_toggles` from a collision flag of 0. -/
theorem drawXorsTheVisibleSprite : Obligations.DrawXorsTheVisibleSprite := by
  refine ⟨fun m x y n => decodeOfEncodeIsIdentity m (.drw x y n), fun x y n rows s hs hn hrange => ?_,
    fun x y n rows s hn hrange => faultsWith_of_exec (exec_drw_of_outOfRange x y hn hrange)⟩
  obtain ⟨htoggled, hkept, hcollides⟩ := blit_toggles_spriteCovers hs x y rows
  have hcollision := hcollides.trans (or_iff_right Bool.false_ne_true)
  exact ⟨_, exec_drw_of_inRange x y hn hrange, htoggled, hkept,
    flagIs_of_flagByte (readV_finishDraw_VF s _) hcollision, rfl, regsKept_finishDraw s _,
    onlyChanged_finishDraw s _⟩

/-- Settles O38: O37 twice. The second draw covers the pixels of the first, each of which it finds toggled. -/
theorem drawingTwiceRestoresTheScreen : Obligations.DrawingTwiceRestoresTheScreen := by
  intro x y n rows s t hs hn hrange hfirst hx hy
  obtain ⟨-, hdraw, -⟩ := drawXorsTheVisibleSprite
  obtain ⟨t', ht', htoggled, hkept, -, -, -, hframe⟩ := hdraw x y n rows s hs hn hrange
  obtain rfl := Host.Outcome.next.inj (hfirst.symm.trans ht')
  have hcfg : t.cfg = s.cfg := hframe .cfg (by simp)
  have hi : t.i = s.i := hframe .i (by simp)
  have ht : t.Inv := exec_keeps_inv hs hfirst
  have hcovers := hframe.spriteCovers_iff (by simp) hx hy rows
  obtain ⟨u, hsecond, htoggled', hkept', hflag, -⟩ := hdraw x y n rows t ht
    ((hframe.rowCount_iff (by simp) n rows).mpr hn) (by rw [hcfg, hi]; exact hrange)
  simp only [hcovers] at htoggled' hkept' hflag
  refine ⟨u, hsecond, ?_, ?_⟩
  · have hu : u.fb.HasShape t.cfg.fbH t.cfg.fbW := exec_keeps_fb_shape ⟨ht.fbRows, ht.fbCols⟩ hsecond
    refine fb_ext (hcfg ▸ hu) ⟨hs.fbRows, hs.fbCols⟩ fun py px => ?_
    show u.pixel py px = s.pixel py px
    by_cases hc : SpriteCovers s x y rows py px
    · rw [htoggled' py px hc, htoggled py px hc, Bool.not_not]
    · rw [hkept' py px hc, hkept py px hc]
  · have hon : ∀ py px, (SpriteCovers s x y rows py px ∧ t.pixel py px = true) ↔
        (SpriteCovers s x y rows py px ∧ s.pixel py px = false) := fun py px =>
      and_congr_right fun hc => by rw [htoggled py px hc, Bool.not_eq_true']
    simpa only [hon] using hflag

/-- Refutes O39: on a screen with every pixel on, the first draw of the top row of the font's digit 0 turns
its pixels off, so that the second one meets no pixel that is on. -/
theorem not_drawingTwiceFlagAsDerivedInTheSpec : ¬ Obligations.DrawingTwiceFlagAsDerivedInTheSpec := by
  intro h
  have hinv : { State.reset with fb := List.replicate 32 (List.replicate 64 true) }.Inv :=
    { initialState_inv .chip8 (by decide : defaultConfig.wf) with
      fbRows := List.length_replicate
      fbCols := fun _ hrow => List.eq_of_mem_replicate hrow ▸ List.length_replicate }
  have hflag := h 0 0 1 1 _ _ _ hinv ⟨by decide, by decide⟩
    (exec_drw_of_inRange (rows := 1) 0 0 ⟨by decide, by decide⟩ (by decide))
    (by decide) (by decide) (by decide)
    (exec_drw_of_inRange (rows := 1) 0 0 ⟨by decide, by decide⟩ (by decide))
  obtain ⟨hone, -⟩ := hflag
  refine absurd (hone ⟨0, 0, ?_⟩) (by decide)
  unfold SpriteCovers
  decide

end Sys2Proof.Machine
end

section
/-! PROOFS. The keys and timers family (44_keys_timers.md): skips on a key, the key wait, the timer moves, and
that nothing reads `ST` back. -/

namespace Sys2Proof.Machine

/-! ## The state of a key (R190) -/

theorem lowKey_eq_of_val {w : Byte} {k : Key} (h : k.val = w.toNat % 16) : lowKey w = k :=
  Fin.ext ((lowKey_val w).trans h.symm)

/-- A key number below 16 names its own latch. -/
theorem keyState_of_key {s : State} {w : Byte} {k : Key} (h : w.toNat = k.val) :
    s.keyState w = s.readKey k := by
  have hw : w.toNat < 16 := h ▸ k.isLt
  rw [State.keyState, if_pos hw, lowKey_eq_of_val (by rw [← h, Nat.mod_eq_of_lt hw])]

theorem afterKeyState_of_key {s : State} {w : Byte} {k : Key} (h : w.toNat = k.val) :
    s.afterKeyState w = s := by
  have hk := k.isLt
  rw [afterKeyState_eq, if_neg (by omega)]

/-- A key number of 16 or more has the state that `KEY_OOR` gives it. -/
theorem keyState_of_beyond {s : State} {w : Byte} {pressed : Bool} (hw : 16 ≤ w.toNat)
    (hdraw : s.cfg.keyOor = .draw → pressed = Config.drawBit s.draws)
    (hlow : s.cfg.keyOor = .lowNibble → ∀ k : Key, k.val = w.toNat % 16 → pressed = s.readKey k)
    (hnot : s.cfg.keyOor = .notPressed → pressed = false) : s.keyState w = pressed := by
  rw [State.keyState, if_neg (Nat.not_lt.mpr hw)]
  cases hopt : s.cfg.keyOor with
  | draw => exact (hdraw hopt).symm
  | lowNibble => exact (hlow hopt _ (lowKey_val w)).symm
  | notPressed => exact (hnot hopt).symm

theorem afterKeyState_draws_of_beyond {s : State} {w : Byte} (hw : 16 ≤ w.toNat) :
    (s.cfg.keyOor = .draw → (s.afterKeyState w).draws = s.draws + 1) ∧
      (s.cfg.keyOor ≠ .draw → (s.afterKeyState w).draws = s.draws) := by
  rw [afterKeyState_eq]
  refine ⟨fun hopt => ?_, fun hopt => ?_⟩
  · rw [if_pos ⟨hw, hopt⟩, bumpDraws_draws]
  · rw [if_neg fun h => hopt h.2]

/-- What a skip on a key number of 16 or more leaves where its test is known to hold under `p` and to fail
under `q`. -/
theorem skipIf_afterKeyState_outcome {s : State} {w : Byte} (hw : 16 ≤ w.toNat) {b : Bool} {p q : Prop}
    (hp : p → b = true) (hq : q → b = false) :
    (p → ((s.afterKeyState w).skipIf b).pc = s.pc + 2) ∧ (q → ((s.afterKeyState w).skipIf b).pc = s.pc) ∧
      (s.cfg.keyOor = .draw → ((s.afterKeyState w).skipIf b).draws = s.draws + 1) ∧
      (s.cfg.keyOor ≠ .draw → ((s.afterKeyState w).skipIf b).draws = s.draws) ∧
      OnlyChanged [.pc, .draws] s ((s.afterKeyState w).skipIf b) := by
  have hlookup := onlyChanged_afterKeyState s w
  have hpc : (s.afterKeyState w).pc = s.pc := hlookup .pc (by simp)
  obtain ⟨hskip, hstay, hframe⟩ := skipIf_outcome (s.afterKeyState w) hp hq
  have hdraws : ((s.afterKeyState w).skipIf b).draws = (s.afterKeyState w).draws :=
    hframe .draws (by simp)
  obtain ⟨hdrawn, hkept⟩ := afterKeyState_draws_of_beyond (s := s) hw
  exact ⟨fun h => hpc ▸ hskip h, fun h => (hstay h).trans hpc, fun h => hdraws.trans (hdrawn h),
    fun h => hdraws.trans (hkept h), (hlookup.trans hframe).mono (by simp)⟩

/-! ## The key wait (R194) -/

theorem exec_ldVxK_of_noKey (x : Reg) {s : State} (h : ∀ k, s.readKey k = false) :
    exec (.ldVxK x) s = .next (s.setPc (s.pc - 2)) := by
  simp only [exec, execLdVxK, (firstKey_eq_none s).mpr h]

theorem exec_ldVxK_of_lowest (x : Reg) {k : Key} {s : State} (hk : s.readKey k = true)
    (hlow : ∀ j, j < k → s.readKey j = false) :
    exec (.ldVxK x) s = .next ((s.writeV x (keyByte k)).consumeKey k) := by
  simp only [exec, execLdVxK, (firstKey_eq_some s k).mpr ⟨hk, hlow⟩]

theorem readV_consumeKey (s : State) (k : Key) (r : Reg) : (s.consumeKey k).readV r = s.readV r :=
  onlyChanged_consumeKey s k .v (by simp) r

/-- The latch of the accepted key survives only where `FX0A_CLEARS_LATCH` is off. -/
theorem readKey_consumeKey_self (s : State) (k : Key) :
    (s.consumeKey k).readKey k = (!s.cfg.fx0aClearsLatch && s.readKey k) := by
  rw [consumeKey_eq]
  cases s.cfg.fx0aClearsLatch <;> simp [readKey_setKey]

theorem readKey_consumeKey_ne (s : State) {k j : Key} (h : j ≠ k) :
    (s.consumeKey k).readKey j = s.readKey j := by
  rw [consumeKey_eq]
  split
  · rw [readKey_setKey, if_neg h]
  · rfl

/-! ## The sound timer (R196) -/

/-- `2NNN` and `00EE` do the same to all the rest whatever `ST` holds; `exec_withUnread` has the others. -/
theorem exec_withSt_of_stack {i : Instr} {s t : State} (w : Byte) (hi : .stack ∈ touched i)
    (h : exec i s = .next t) : exec i { s with st := w } = .next { t with st := w } := by
  rcases (stack_mem_touched i).mp hi with rfl | ⟨nnn, rfl⟩
  · rcases execRet_cases h with ⟨hsp, rfl⟩ | ⟨hsp, rfl⟩
    · exact exec_ret_of_entry (s := { s with st := w }) hsp
    · exact exec_ret_of_empty (s := { s with st := w }) hsp
  · rcases execCall_cases h with ⟨hsp, rfl⟩ | ⟨hsp, rfl⟩
    · exact exec_call_of_room nnn (s := { s with st := w }) hsp
    · exact exec_call_of_full nnn (s := { s with st := w }) hsp

/-! ## The obligations -/

/-- Settles O41: the key has the state `pressed` that `KEY_OOR` gives it, and each skip tests that. -/
theorem keySkipsBeyondTheKeypad : Obligations.KeySkipsBeyondTheKeypad := by
  intro x s pressed hw hdraw hlow hnot
  have hkey := keyState_of_beyond hw hdraw hlow hnot
  refine ⟨⟨_, rfl, ?_⟩, ⟨_, rfl, ?_⟩⟩ <;> rw [hkey]
  · exact skipIf_afterKeyState_outcome hw id id
  · exact skipIf_afterKeyState_outcome hw (congrArg not) (congrArg not)

/-- Settles O44: the lowest latched key is the one `FX0A` finds; the store keeps the latches and the consumed
latch keeps the registers. -/
theorem keyWaitAcceptsTheLowestKey : Obligations.KeyWaitAcceptsTheLowestKey := by
  refine ⟨fun m x => decodeOfEncodeIsIdentity m (.ldVxK x), fun x k s hk hlow => ?_⟩
  refine ⟨_, exec_ldVxK_of_lowest x hk hlow, ?_, fun r hr => ?_, fun hopt => ?_, fun hopt => ?_,
    fun j hj => readKey_consumeKey_ne _ hj, (onlyChanged_writeV s x _).trans (onlyChanged_consumeKey _ k)⟩
  · rw [readV_consumeKey, readV_writeV_self, keyByte_toNat]
  · rw [readV_consumeKey, regsKept_writeV s x _ r hr]
  · rw [readKey_consumeKey_self, writeV_cfg, hopt, Bool.not_true, Bool.false_and]
  · rw [readKey_consumeKey_self, writeV_cfg, hopt, Bool.not_false, Bool.true_and, readKey_writeV, hk]

/-- Settles O55: an instruction that touches neither the stack nor `ST` reads neither; the call and the return
read the stack alone; `FX18` writes `ST` without reading it. -/
theorem soundTimerIsWriteOnly : Obligations.SoundTimerIsWriteOnly := by
  refine fun s w => ⟨fun i t hi h => ?_, fun x => rfl⟩
  by_cases hstack : .stack ∈ touched i
  · exact exec_withSt_of_stack w hstack h
  · have hst : .st ∉ touched i := by simp [st_mem_touched, hi]
    obtain ⟨hsp, hentries⟩ := exec_frame h .stack hstack
    have hsame : t.withUnread s.stack s.sp w = { t with st := w } := by rw [← hsp, ← hentries]; rfl
    exact hsame ▸ exec_withUnread s.stack s.sp w hstack hst h

/-- Settles O40: the key is on the keypad, so the lookup reads its latch and leaves the state as it was. -/
theorem keySkipsReadTheLatch : Obligations.KeySkipsReadTheLatch := by
  refine ⟨fun m x => decodeOfEncodeIsIdentity m (.skp x), fun m x => decodeOfEncodeIsIdentity m (.sknp x),
    fun x k s hk => ⟨⟨_, rfl, ?_⟩, ⟨_, rfl, ?_⟩⟩⟩ <;> rw [afterKeyState_of_key hk, keyState_of_key hk]
  · exact skipIf_outcome s id id
  · exact skipIf_outcome s (congrArg not) (congrArg not)

/-- Settles O42: a plain write of `DT` to the register. -/
theorem readDelayTimer : Obligations.ReadDelayTimer :=
  ⟨fun m x => decodeOfEncodeIsIdentity m (.ldVxDt x),
    fun x s => ⟨_, rfl, readV_writeV_self s x _, regsKept_writeV s x _, onlyChanged_writeV s x _⟩⟩

/-- Settles O43: plain writes of the timers; the sound gate is the test that `ST` is not 0. -/
theorem setTimers : Obligations.SetTimers :=
  ⟨fun m x => decodeOfEncodeIsIdentity m (.ldDtVx x), fun m x => decodeOfEncodeIsIdentity m (.ldStVx x),
    fun x _ => ⟨_, rfl, rfl, exec_frame (i := .ldDtVx x) rfl⟩,
    fun x _ => ⟨_, rfl, rfl, bne_iff_ne, exec_frame (i := .ldStVx x) rfl⟩⟩

/-- Settles O45: the rewind takes back exactly the advance of `PC` that the front of the step made. -/
theorem keyWaitHoldsWithoutAKey : Obligations.KeyWaitHoldsWithoutAKey := by
  refine ⟨fun x s hnone => ⟨_, exec_ldVxK_of_noKey x hnone, rfl, onlyChanged_setPc s _⟩,
    fun x s hrun hrange hword hnone => ?_⟩
  have hdecode := (congrArg (decode s.cfg.family0Match) hword).trans
    (decodeOfEncodeIsIdentity s.cfg.family0Match (.ldVxK x))
  have hrewind : s.pc + 2 - 2 = s.pc := BitVec.add_sub_cancel s.pc 2
  rw [stepRunsTheDecodedInstruction s (.ldVxK x) hrun hrange hdecode,
    exec_ldVxK_of_noKey x (s := { s with pc := s.pc + 2 }) hnone]
  simp only [State.setPc, hrewind]

end Sys2Proof.Machine
end

section
/-! PROOFS. The exceptions family (60_exceptions.md): which instruction faults and when, that a fault changes
`FAULT` alone, the halted core, and the decay of the timers. -/

namespace Sys2Proof.Machine

/-! ## The fault an instruction raises (R212) -/

section
variable {s u : State} (hrun : s.fault = none)
include hrun

theorem exec_ret_fault (h : exec .ret s = .next u) :
    u.fault = if s.sp = 0 then some .stackUnderflow else none := by
  rcases execRet_cases h with ⟨hsp, rfl⟩ | ⟨hsp, rfl⟩
  · exact hrun.trans (if_neg hsp).symm
  · exact (if_pos hsp).symm

theorem exec_call_fault {nnn : Addr} (h : exec (.call nnn) s = .next u) :
    u.fault = if s.sp = s.cfg.stackDepth then some .stackOverflow else none := by
  rcases execCall_cases h with ⟨hsp, rfl⟩ | ⟨hsp, rfl⟩
  · exact hrun.trans (if_neg hsp).symm
  · exact (if_pos hsp).symm

/-- An effect that keeps `FAULT`, behind a range check, faults exactly where the check fails. -/
theorem orRaise_ifInRange_fault {ps : List Part} {t : State} {b : Word} {w : Nat}
    (h : s.orRaise (s.ifInRange b w t) = .next u) (ht : OnlyChanged ps s t) (hps : .fault ∉ ps) :
    u.fault = if s.cfg.memSize < b.toNat + w then some .memoryOutOfRange else none := by
  rcases orRaise_ifInRange_cases h with ⟨hin, rfl⟩ | ⟨hout, rfl⟩
  · exact ((ht .fault hps).trans hrun).trans (if_neg (Nat.not_lt.mpr hin)).symm
  · exact (if_pos hout).symm

theorem exec_ldBVx_fault {x : Reg} (h : exec (.ldBVx x) s = .next u) :
    u.fault = if s.cfg.memSize < s.i.toNat + 3 then some .memoryOutOfRange else none :=
  orRaise_ifInRange_fault hrun h (onlyChanged_writeBytes s _ _) (by simp)

theorem exec_ldMemVx_fault {x : Reg} (h : exec (.ldMemVx x) s = .next u) :
    u.fault = if s.cfg.memSize < s.i.toNat + (x.val + 1) then some .memoryOutOfRange else none :=
  orRaise_ifInRange_fault hrun h ((onlyChanged_writeBytes s _ _).trans (onlyChanged_stepIndex _ _)) (by simp)

theorem exec_ldVxMem_fault {x : Reg} (h : exec (.ldVxMem x) s = .next u) :
    u.fault = if s.cfg.memSize < s.i.toNat + (x.val + 1) then some .memoryOutOfRange else none :=
  orRaise_ifInRange_fault hrun h ((onlyChanged_loadRegs s _ _).trans (onlyChanged_stepIndex _ _)) (by simp)

theorem exec_drw_fault {x y : Reg} {n : Nibble} (h : exec (.drw x y n) s = .next u) :
    u.fault = if s.cfg.memSize < s.i.toNat + s.drawRowCount n then some .memoryOutOfRange else none :=
  orRaise_ifInRange_fault hrun h (onlyChanged_finishDraw s _) (by simp)

end

theorem rowCount_drawRowCount (s : State) (n : Nibble) : RowCount s n (s.drawRowCount n) :=
  ⟨fun h => if_pos h, fun h => if_neg h⟩

/-- The statements' row count is the one the draw uses. -/
theorem rowCount_iff_eq_drawRowCount {s : State} {n : Nibble} {rows : Nat} :
    RowCount s n rows ↔ rows = s.drawRowCount n :=
  ⟨fun h => (drawRowCount_of_rowCount h).symm, fun h => h ▸ rowCount_drawRowCount s n⟩

/-! ## A fault undoes the advance of `PC` (R211) -/

theorem advancePc_pc0 (s : State) : s.advancePc.pc0 = s.pc := BitVec.add_sub_cancel s.pc 2

/-- The fault an instruction raises is the one a fetch would raise at the address it was fetched from. -/
theorem latchFault_advancePc (s : State) (kind : FaultKind) :
    s.advancePc.latchFault kind s.advancePc.pc0 = s.latchFault kind s.pc := by
  rw [advancePc_pc0]
  rfl

/-- A running core's step leaves `FAULT` clear, or latches a fault at the `PC` it began with. -/
theorem step_fault_cases {s t : State} (h : step s = .next t) :
    t.fault = none ∨ ∃ kind, t = s.latchFault kind s.pc := by
  obtain ⟨hrun, rfl | rfl | ⟨i, hi⟩⟩ := step_next_cases h
  · exact .inr ⟨_, rfl⟩
  · exact .inl hrun
  · rcases exec_fault_cases hi with hkept | ⟨kind, rfl⟩
    · exact .inl (hkept.trans hrun)
    · exact .inr ⟨kind, latchFault_advancePc s kind⟩

/-! ## The timers (R213, R219) -/

theorem countDown_toNat (w : Byte) : (countDown w).toNat = w.toNat - 1 := by
  unfold countDown
  split <;> bv_omega

theorem decayTimers_of_running {s : State} (h : s.fault = none) :
    s.decayTimers = (s.setDt (countDown s.dt)).setSt (countDown s.st) := by
  simp only [State.decayTimers, h]

theorem decayTimers_of_halted {s : State} {kind : FaultKind} (h : s.fault = some kind) :
    s.decayTimers = s := by
  simp only [State.decayTimers, h]

theorem soundGate_iff (s : State) : s.soundGate = true ↔ s.st ≠ 0 := bne_iff_ne

/-- A write of both timers changes nothing else. -/
theorem onlyChanged_setDt_setSt (s : State) (d w : Byte) :
    OnlyChanged [.dt, .st] s ((s.setDt d).setSt w) := by
  intro p hp
  cases p with
  | dt | st => simp at hp
  | mem | v | key => exact fun _ => rfl
  | stack => exact ⟨rfl, rfl⟩
  | cfg | i | pc | fb | quirks | draw | fault | draws => rfl

/-! ## The obligations -/

/-- Settles O10: a fault is latched at the `PC` the step began with, so writing that `PC` changes nothing. -/
theorem faultsArePrecise : Obligations.FaultsArePrecise := by
  intro s t _ h hfault
  rcases step_fault_cases h with hnone | ⟨kind, rfl⟩
  · exact absurd hnone hfault
  · rfl

/-- Settles O11, by instruction: the six that can fault each test one condition, and the rest leave `FAULT`
as it was. -/
theorem faultConditionsAreExactlyThese : Obligations.FaultConditionsAreExactlyThese := by
  intro i s hrun
  obtain ⟨t, h⟩ := exec_next i s
  refine ⟨t, h, ?_⟩
  cases i with
  | ret => simp [exec_ret_fault hrun h]
  | call => simp [exec_call_fault hrun h]
  | ldBVx => simp [exec_ldBVx_fault hrun h]
  | ldMemVx => simp [exec_ldMemVx_fault hrun h]
  | ldVxMem => simp [exec_ldVxMem_fault hrun h]
  | drw => simp [exec_drw_fault hrun h, rowCount_iff_eq_drawRowCount]
  | cls | jp | seImm | sneImm | seReg | ldImm | addImm | ldReg | or | and | xor | addReg | sub | shr | subn
  | shl | sneReg | ldI | jpV0 | rnd | skp | sknp | ldVxDt | ldVxK | ldDtVx | ldStVx | addIVx | ldFVx =>
    have hnone : t.fault = none := (exec_frame h .fault (by simp [touched])).trans hrun
    simp [hnone]

/-- Settles O8: the front of a halted core's step settles it and the decay is skipped; the collaborator writes
do not look at `FAULT`. -/
theorem haltedCoreStands : Obligations.HaltedCoreStands := by
  refine ⟨fun s kind hhalt => ?_, fun s k b => ⟨rfl, ?_, fun j hj => ?_, onlyChanged_setKey s k b⟩,
    fun s => ⟨rfl, rfl, onlyChanged_setDraw s false⟩⟩
  · have hstep := step_of_settled (beginStep_halted hhalt)
    have hdecay := decayTimers_of_halted hhalt
    refine ⟨hstep, by simp only [stepResult, hstep], by simp only [applyOp, hstep], hdecay, ?_⟩
    rw [State.decayResult, hdecay, Bool.eq_iff_iff, soundGate_iff, decide_eq_true_iff]
  · exact (readKey_setKey s k k b).trans (if_pos rfl)
  · exact (readKey_setKey s k j b).trans (if_neg hj)

/-- Settles O46: a running core's decay writes the count down of each timer, and the gate reads `ST` after it. -/
theorem decayCountsBothTimersDown : Obligations.DecayCountsBothTimersDown := by
  intro s hrun
  refine ⟨?_, ?_, soundGate_iff s.decayTimers, ?_⟩ <;> rw [decayTimers_of_running hrun]
  · exact countDown_toNat s.dt
  · exact countDown_toNat s.st
  · exact onlyChanged_setDt_setSt s _ _

end Sys2Proof.Machine
end

section
/-! PROOFS. The reset and hazards family (70_reset_and_hazards.md): when create and reset are refused, and
that reset builds what create would. -/

namespace Sys2Proof.Machine

/-! ## A program that does not fit, and one that does (R242) -/

theorem create_eq_romTooLarge_iff {c : Config} {p : List Byte} {q : Quirks} :
    create c (some p) q = .error .romTooLarge ↔ ¬ c.programFits p := by
  refine ⟨fun herr hfit => ?_, fun h => if_neg h⟩
  rw [create_ok q hfit] at herr
  cases herr

theorem resetTo_ok {s : State} {p : List Byte} (h : s.cfg.programFits p) :
    resetTo p s = .ok (s.load p) :=
  if_pos h

theorem resetTo_too_large {s : State} {p : List Byte} (h : ¬ s.cfg.programFits p) :
    resetTo p s = .error .romTooLarge :=
  if_neg h

/-! ## What `Load` keeps (R243) -/

/-- Of the state it starts from, `Load` looks at the configuration and the mode; the count of draws it only
carries along (log 5). -/
theorem load_eq_load_initialState (s : State) (p : List Byte) :
    s.load p = { (initialState s.cfg s.quirks).load p with draws := s.draws } := by
  have hmem : (s.load p).mem = ((initialState s.cfg s.quirks).load p).mem :=
    writeBytes_mem_congr _ _ rfl rfl
  rw [load_eq s, load_eq (initialState s.cfg s.quirks), hmem]
  rfl

/-! ## The obligations -/

/-- Settles O49: both operations test the same length and then `Load`, which keeps the mode and clears
`FAULT`. -/
theorem resetKeepsOnlyTheMode : Obligations.ResetKeepsOnlyTheMode := by
  refine ⟨fun s p hfit => ?_, fun s p hlong => ?_⟩
  · have hload := onlyChanged_load s p
    have happly : applyOp (.reset p) s = s.load p := by simp only [applyOp, resetTo_ok hfit]
    rw [happly]
    exact ⟨_, create_ok s.quirks hfit, load_eq_load_initialState s p, hload .quirks (by simp),
      hload .fault (by simp), by simp only [opResult, resetTo_ok hfit]⟩
  · simp only [applyOp, opResult, resetTo_too_large (Nat.not_le.mpr hlong), and_self]

/-- Settles O48: `create` is refused without a program, or by its length alone, and 0 bytes always fit. -/
theorem createFailsExactlyWhen : Obligations.CreateFailsExactlyWhen :=
  ⟨fun _ _ => rfl, fun _ _ _ => create_eq_romTooLarge_iff.trans Nat.not_le,
    fun _ q => ⟨_, create_ok q (Nat.zero_le _)⟩, fun _ _ => rfl⟩

end Sys2Proof.Machine
end
